-- ==== Sys2Proof/Word.lean ====
section
/-! DEFINITION. The value a lane carries and a port of lanes (`10_state.md` R13 to R16, R23). -/

namespace Sys2Proof

/-- The value on one lane: an unsigned 8-bit value, bit 0 least significant (R8, R79).
A Sample and a Block both travel as one `Byte` (R13, R14). -/
abbrev Byte := BitVec 8

/-- `n` lanes in index order: a Group of `n` Samples (R15) or a Packed representation of `n` Blocks (R16).
Lane `i` carries the member the source numbers `i` (R27). -/
abbrev Lanes (n : Nat) := Vector Byte n

end Sys2Proof
end

