-- ==== Sys2Proof/Config.lean ====
section
/-! DEFINITION. The sizes the source fixes (`00_scope.md` R2, R7). Nothing here can be configured and no value is
left free: R21 says the masks and shift distances are constants of the logic, and R7 says a model takes none of
`T_PD`, `DEBUG_ASSERT` and `STREAM_ORDER` as an argument. -/

namespace Sys2Proof.Config

/-- One row of R2's table. -/
structure Codec where
  /-- N, the Samples of one Group. -/
  samples : Nat
  /-- k, the value bits of one Sample. -/
  valueBits : Nat
  /-- M, the Blocks of one Packed representation. -/
  blocks : Nat
deriving DecidableEq, Repr

/-- The Pair codec (R2). -/
def pair : Codec := { samples := 2, valueBits := 4, blocks := 1 }

/-- The Quad codec (R2). -/
def quad : Codec := { samples := 4, valueBits := 6, blocks := 3 }

/-- The Octet codec (R2). -/
def octet : Codec := { samples := 8, valueBits := 7, blocks := 7 }

end Sys2Proof.Config
end

