-- ==== Sys2Proof/Syntax.lean ====
section
/-! DEFINITION. The operations of the block: one constructor per row of `spec/opcode_table.json`
(`30_encoding.md` R47). -/

namespace Sys2Proof

/-- One evaluation of one operation: the module, and the values the caller presents at its input ports
(R12 item 1, R47; a step is one evaluation, decision D10). No value of a lane is illegal (R48), so every term
of this type is a well-formed evaluation. -/
inductive Instr where
  /-- `PACK2X4`: `s[0]`, `s[1]` (R53). -/
  | pack2x4 (s : Lanes 2)
  /-- `UNPACK2X4`: `b[0]` (R54). -/
  | unpack2x4 (b : Lanes 1)
  /-- `PACK4X6`: `s[0]` to `s[3]` (R59). -/
  | pack4x6 (s : Lanes 4)
  /-- `UNPACK4X6`: `b[0]` to `b[2]` (R60). -/
  | unpack4x6 (b : Lanes 3)
  /-- `PACK8X7`: `s[0]` to `s[7]` (R67). -/
  | pack8x7 (s : Lanes 8)
  /-- `UNPACK8X7`: `b[0]` to `b[6]` (R68). -/
  | unpack8x7 (b : Lanes 7)
deriving DecidableEq, Repr

end Sys2Proof
end

