-- ==== Sys2Proof/Machine/Modules.lean ====
section
/-! DEFINITION. The six modules and the operation table (`10_state.md` R23, `30_encoding.md` R39, R47). -/

namespace Sys2Proof.Machine

/-- The six modules, by the names of R23. -/
inductive Module where
  | pairPack
  | pairUnpack
  | quadPack
  | quadUnpack
  | octetPack
  | octetUnpack
deriving DecidableEq, Repr

/-- R47's index column: a label of the enumeration, no signal of the hardware (decision D12). -/
def Module.index : Module → Nat
  | .pairPack => 0
  | .pairUnpack => 1
  | .quadPack => 2
  | .quadUnpack => 3
  | .octetPack => 4
  | .octetUnpack => 5

/-- The module an index labels; none above 5 (decision D12). -/
def Module.ofIndex? : Nat → Option Module
  | 0 => some .pairPack
  | 1 => some .pairUnpack
  | 2 => some .quadPack
  | 3 => some .quadUnpack
  | 4 => some .octetPack
  | 5 => some .octetUnpack
  | _ => none

/-- How many input lanes a module has (R23, R39). -/
def Module.inputLanes : Module → Nat
  | .pairPack => Config.pair.samples
  | .pairUnpack => Config.pair.blocks
  | .quadPack => Config.quad.samples
  | .quadUnpack => Config.quad.blocks
  | .octetPack => Config.octet.samples
  | .octetUnpack => Config.octet.blocks

/-- How many output lanes a module has (R23, R39). -/
def Module.outputLanes : Module → Nat
  | .pairPack => Config.pair.blocks
  | .pairUnpack => Config.pair.samples
  | .quadPack => Config.quad.blocks
  | .quadUnpack => Config.quad.samples
  | .octetPack => Config.octet.blocks
  | .octetUnpack => Config.octet.samples

end Sys2Proof.Machine

namespace Sys2Proof

/-- The module that computes an operation (R47). -/
def Instr.module : Instr → Machine.Module
  | .pack2x4 _ => .pairPack
  | .unpack2x4 _ => .pairUnpack
  | .pack4x6 _ => .quadPack
  | .unpack4x6 _ => .quadUnpack
  | .pack8x7 _ => .octetPack
  | .unpack8x7 _ => .octetUnpack

end Sys2Proof
end

