-- ==== Sys2Proof/Machine/Listing.lean ====
section
/-! DEFINITION. The lines of a listing (`30_encoding.md` R51, decisions D10 and D19). -/

namespace Sys2Proof.Machine

/-- An argument of a line: "each `a` is a literal or a name defined on an earlier line" (R51). -/
inductive Operand where
  /-- A literal lane value. -/
  | lit (v : Byte)
  /-- A name. DESIGN CHOICE (log 3), safe: the `n`-th name a listing defines is written `n`, counting from 0, so
  a new name is new by construction. -/
  | name (n : Nat)
deriving DecidableEq, Repr

/-- One line `(d0, d1, ...) = MNEMONIC(a0, a1, ...)` of a listing (R51). The mnemonic is given by its index
(R47); the `d` are the next names in order (log 3). -/
structure Line where
  /-- The operation's index. -/
  index : Nat
  /-- The arguments in lane order, lane 0 first. -/
  operands : List Operand
deriving DecidableEq, Repr

end Sys2Proof.Machine
end

