-- ==== Sys2Proof/Machine/State.lean ====
section
/-! DEFINITION. The state: what stands on the ports of the six modules (`10_state.md` R23, "the only places a value
exists"), and the listing the caller is running with the values it has named (decision D10). The block itself has no
register, flag, program counter or memory (R17 to R24). -/

namespace Sys2Proof.Machine

/-- The values on one module's ports: `n` input lanes and `m` output lanes (R23). No storage element stands behind
either (R17): the outputs are held here as what the wires show, and `State.OutputsFollow` (Safety.lean) says they are
the module's function of the inputs (log 2). -/
structure Ports (n m : Nat) where
  /-- What the caller drives the input lanes with. -/
  inp : Lanes n
  /-- What the output lanes show. -/
  out : Lanes m
deriving DecidableEq, Repr

/-- The machine. -/
structure State where
  /-- `pair_pack`: `s[0]`, `s[1]` to `b[0]`. -/
  pairPack : Ports 2 1
  /-- `pair_unpack`: `b[0]` to `s[0]`, `s[1]`. -/
  pairUnpack : Ports 1 2
  /-- `quad_pack`: `s[0]`..`s[3]` to `b[0]`..`b[2]`. -/
  quadPack : Ports 4 3
  /-- `quad_unpack`: `b[0]`..`b[2]` to `s[0]`..`s[3]`. -/
  quadUnpack : Ports 3 4
  /-- `octet_pack`: `s[0]`..`s[7]` to `b[0]`..`b[6]`. -/
  octetPack : Ports 8 7
  /-- `octet_unpack`: `b[0]`..`b[6]` to `s[0]`..`s[7]`. -/
  octetUnpack : Ports 7 8
  /-- The set of named values (D10): the value of name `n` is the `n`-th entry. The caller's, not the block's. -/
  named : List Byte
  /-- The lines of the listing not yet evaluated, first to be evaluated first (D10). The caller's, not the block's. -/
  pending : List Line
deriving DecidableEq, Repr

/-- Reasons to stop with a fault: none. "A model's step function for this block has one outcome, the result value; it
needs no fault constructor" (R89). -/
inductive Fault
deriving DecidableEq, Repr

/-- Reasons a step has no meaning. None is raised by an operation (R89): `exec` never refuses. All are safe: the spec
gives the caller's line no meaning. -/
inductive Refusal where
  /-- Raised by no arm: every operation of the table has its meaning. Safe. -/
  | notModelled (mnemonic : String)
  /-- Raised by `step` when the line's index is above 5 (decision D12, U12). Safe. -/
  | noSuchOperation (index : Nat)
  /-- Raised by `step` when a line gives an operation fewer or more lanes than it has (R30). Safe. -/
  | wrongLaneCount (index lanes : Nat)
  /-- Raised by `step` when a line uses a name no earlier line defines (R51): with the line's own result it would be a
  combinational loop, which is given no meaning (R109, U11). Safe. -/
  | undefinedName (n : Nat)
deriving DecidableEq, Repr

/-- Every lane zero. -/
def Ports.zero (n m : Nat) : Ports n m := { inp := Vector.replicate n 0, out := Vector.replicate m 0 }

/-- After a reset of the surrounding system. The block has no reset and no reset value (R25, R102). DESIGN CHOICE
(log 1), unsafe: the caller drives every input lane with zero; the outputs then show zero, which R103 gives. Nothing
has been named and no listing is loaded (log 5). -/
def State.reset : State where
  pairPack := Ports.zero 2 1
  pairUnpack := Ports.zero 1 2
  quadPack := Ports.zero 4 3
  quadUnpack := Ports.zero 3 4
  octetPack := Ports.zero 8 7
  octetUnpack := Ports.zero 7 8
  named := []
  pending := []

end Sys2Proof.Machine
end

