-- ==== Sys2Proof/Machine/Ops.lean ====
section
/-! DEFINITION. The shared operations: the two shifts (`43_common_laws.md` R80, R81; AND and OR are those of
`BitVec`, R82), the constants of `30_encoding.md` R46, and the evaluation of one module. Taking an exception and
returning from one have no operation here: the block has neither (R89, R93, R94). -/

namespace Sys2Proof.Machine

/-- Left shift kept to 8 bits; what passes bit 7 is lost (R10, R80). -/
def shl8 (v : Byte) (n : Nat) : Byte := v <<< n

/-- Logical right shift; zeros enter at bit 7 (R10, R81). -/
def shr8 (v : Byte) (n : Nat) : Byte := v >>> n

/-- `PAIR_MASK_LO`, bits 3:0 (R46). -/
def pairMaskLo : Byte := 0x0F

/-- `PAIR_SHIFT` (R46). -/
def pairShift : Nat := 4

/-- `QUAD_MASK_HI`, bits 7:6 (R46). -/
def quadMaskHi : Byte := 0xC0

/-- `QUAD_MASK_LO`, bits 5:0 (R46). -/
def quadMaskLo : Byte := 0x3F

/-- `QUAD_SHIFT(i)`: 2, 4, 6 (R46). -/
def quadShift (i : Nat) : Nat := 2 * (i + 1)

/-- `OCTET_MASK_HI`, bit 7 (R46). -/
def octetMaskHi : Byte := 0x80

/-- `OCTET_MASK_LO`, bits 6:0 (R46). -/
def octetMaskLo : Byte := 0x7F

/-- `OCTET_SHIFT(i)`: 1 to 7 (R46). -/
def octetShift (i : Nat) : Nat := i + 1

/-- Eight wires joined to a lane, most significant first: the concatenation `{...}` of R10. -/
def byteOfWires (w7 w6 w5 w4 w3 w2 w1 w0 : Bool) : Byte :=
  BitVec.ofFnLE fun j : Fin 8 => #v[w0, w1, w2, w3, w4, w5, w6, w7][j]

/-- A module's ports when `x` is presented: the inputs are `x` and the outputs are the module's function of `x`
alone (R17, R31). -/
def Ports.present {n m : Nat} (f : Lanes n → Lanes m) (x : Lanes n) : Ports n m := { inp := x, out := f x }

/-- The caller names the lanes an evaluation has put out, lane 0 first (R51, D10). -/
def State.nameLanes {m : Nat} (st : State) (out : Lanes m) : State := { st with named := st.named ++ out.toList }

/-- What stands on a module's input ports, lane 0 first (R23). -/
def State.inputs (st : State) : Module → List Byte
  | .pairPack => st.pairPack.inp.toList
  | .pairUnpack => st.pairUnpack.inp.toList
  | .quadPack => st.quadPack.inp.toList
  | .quadUnpack => st.quadUnpack.inp.toList
  | .octetPack => st.octetPack.inp.toList
  | .octetUnpack => st.octetUnpack.inp.toList

/-- What a module's output ports show, lane 0 first (R23). -/
def State.outputs (st : State) : Module → List Byte
  | .pairPack => st.pairPack.out.toList
  | .pairUnpack => st.pairUnpack.out.toList
  | .quadPack => st.quadPack.out.toList
  | .quadUnpack => st.quadUnpack.out.toList
  | .octetPack => st.octetPack.out.toList
  | .octetUnpack => st.octetUnpack.out.toList

end Sys2Proof.Machine
end

