-- ==== Sys2Proof/Machine/Octet.lean ====
section
/-! DEFINITION. The Octet codec (`42_octet_codec.md`). The layout follows the source's formulas and its vector, not
the clause the spec sets aside (`90_conflicts.md` C2). -/

namespace Sys2Proof.Machine

/-- The function of `octet_pack` (R67). `s[1]` to `s[7]` are not masked (R70). -/
def pack8x7 (s : Lanes 8) : Lanes 7 :=
  #v[s[1] ||| (shl8 s[0] (octetShift 0) &&& octetMaskHi),
     s[2] ||| (shl8 s[0] (octetShift 1) &&& octetMaskHi),
     s[3] ||| (shl8 s[0] (octetShift 2) &&& octetMaskHi),
     s[4] ||| (shl8 s[0] (octetShift 3) &&& octetMaskHi),
     s[5] ||| (shl8 s[0] (octetShift 4) &&& octetMaskHi),
     s[6] ||| (shl8 s[0] (octetShift 5) &&& octetMaskHi),
     s[7] ||| (shl8 s[0] (octetShift 6) &&& octetMaskHi)]

/-- The function of `octet_unpack` (R68). -/
def unpack8x7 (b : Lanes 7) : Lanes 8 :=
  #v[shr8 (b[0] &&& octetMaskHi) (octetShift 0) ||| shr8 (b[1] &&& octetMaskHi) (octetShift 1)
       ||| shr8 (b[2] &&& octetMaskHi) (octetShift 2) ||| shr8 (b[3] &&& octetMaskHi) (octetShift 3)
       ||| shr8 (b[4] &&& octetMaskHi) (octetShift 4) ||| shr8 (b[5] &&& octetMaskHi) (octetShift 5)
       ||| shr8 (b[6] &&& octetMaskHi) (octetShift 6),
     b[0] &&& octetMaskLo,
     b[1] &&& octetMaskLo,
     b[2] &&& octetMaskLo,
     b[3] &&& octetMaskLo,
     b[4] &&& octetMaskLo,
     b[5] &&& octetMaskLo,
     b[6] &&& octetMaskLo]

/-- `PACK8X7` (R67): flags none, exceptions none, whatever the range of the Samples (R70, R90). -/
def execPack8x7 (s : Lanes 8) (st : State) : Host.Outcome State Fault Refusal :=
  .next ({ st with octetPack := Ports.present pack8x7 s }.nameLanes (pack8x7 s))

/-- `UNPACK8X7` (R68): flags none, exceptions none. -/
def execUnpack8x7 (b : Lanes 7) (st : State) : Host.Outcome State Fault Refusal :=
  .next ({ st with octetUnpack := Ports.present unpack8x7 b }.nameLanes (unpack8x7 b))

end Sys2Proof.Machine
end

