-- ==== Sys2Proof/Machine/Pair.lean ====
section
/-! DEFINITION. The Pair codec (`40_pair_codec.md`). -/

namespace Sys2Proof.Machine

/-- The function of `pair_pack` (R53). -/
def pack2x4 (s : Lanes 2) : Lanes 1 :=
  #v[shl8 s[1] pairShift ||| (s[0] &&& pairMaskLo)]

/-- The function of `pair_unpack` (R54). -/
def unpack2x4 (b : Lanes 1) : Lanes 2 :=
  #v[b[0] &&& pairMaskLo, shr8 b[0] pairShift]

/-- `PACK2X4` (R53): flags none, exceptions none. -/
def execPack2x4 (s : Lanes 2) (st : State) : Host.Outcome State Fault Refusal :=
  .next ({ st with pairPack := Ports.present pack2x4 s }.nameLanes (pack2x4 s))

/-- `UNPACK2X4` (R54): flags none, exceptions none. -/
def execUnpack2x4 (b : Lanes 1) (st : State) : Host.Outcome State Fault Refusal :=
  .next ({ st with pairUnpack := Ports.present unpack2x4 b }.nameLanes (unpack2x4 b))

end Sys2Proof.Machine
end

