-- ==== Sys2Proof/Machine/Quad.lean ====
section
/-! DEFINITION. The Quad codec (`41_quad_codec.md`). The layout follows the source's formulas and its vector, not the
prose the spec sets aside (`90_conflicts.md` C1, C5). -/

namespace Sys2Proof.Machine

/-- The function of `quad_pack` (R59). `s[1]` to `s[3]` are not masked (R62). -/
def pack4x6 (s : Lanes 4) : Lanes 3 :=
  #v[s[1] ||| (shl8 s[0] (quadShift 0) &&& quadMaskHi),
     s[2] ||| (shl8 s[0] (quadShift 1) &&& quadMaskHi),
     s[3] ||| (shl8 s[0] (quadShift 2) &&& quadMaskHi)]

/-- The function of `quad_unpack` (R60). -/
def unpack4x6 (b : Lanes 3) : Lanes 4 :=
  #v[shr8 (b[0] &&& quadMaskHi) (quadShift 0) ||| shr8 (b[1] &&& quadMaskHi) (quadShift 1)
       ||| shr8 (b[2] &&& quadMaskHi) (quadShift 2),
     b[0] &&& quadMaskLo,
     b[1] &&& quadMaskLo,
     b[2] &&& quadMaskLo]

/-- `PACK4X6` (R59): flags none, exceptions none, whatever the range of the Samples (R62, R90). -/
def execPack4x6 (s : Lanes 4) (st : State) : Host.Outcome State Fault Refusal :=
  .next ({ st with quadPack := Ports.present pack4x6 s }.nameLanes (pack4x6 s))

/-- `UNPACK4X6` (R60): flags none, exceptions none. -/
def execUnpack4x6 (b : Lanes 3) (st : State) : Host.Outcome State Fault Refusal :=
  .next ({ st with quadUnpack := Ports.present unpack4x6 b }.nameLanes (unpack4x6 b))

end Sys2Proof.Machine
end

