-- ==== Sys2Proof/Machine/Dispatch.lean ====
section
/-! DEFINITION. One arm per operation (`30_encoding.md` R47). -/

namespace Sys2Proof.Machine

/-- The meaning of an evaluation. -/
def exec (i : Instr) (s : State) : Host.Outcome State Fault Refusal :=
  match i with
  | .pack2x4 x => Sys2Proof.Machine.execPack2x4 x s
  | .unpack2x4 x => Sys2Proof.Machine.execUnpack2x4 x s
  | .pack4x6 x => Sys2Proof.Machine.execPack4x6 x s
  | .unpack4x6 x => Sys2Proof.Machine.execUnpack4x6 x s
  | .pack8x7 x => Sys2Proof.Machine.execPack8x7 x s
  | .unpack8x7 x => Sys2Proof.Machine.execUnpack8x7 x s

end Sys2Proof.Machine
end

