-- ==== Sys2Proof/Decode.lean ====
section
/-! DEFINITION. The decoder and the encoder. The hardware has no opcode (`30_encoding.md` R47), so an evaluation is
written as `95_test_vectors.md` §3 writes it: the operation's index and the input lanes, the lanes also in the flat
view of `20_memory.md` R28. DESIGN CHOICE (log 6), safe. -/

namespace Sys2Proof

/-- Why a pair of index and lanes is no evaluation. -/
inductive DecodeError where
  /-- The index labels no operation: it is above 5 (decision D12, U12). -/
  | noSuchOperation (index : Nat)
  /-- An operation takes exactly its own number of lanes (R30). -/
  | wrongLaneCount (index lanes : Nat)
deriving DecidableEq, Repr

/-- The lanes a list holds, when there are exactly `n`. -/
def lanesOf? (n : Nat) (lanes : List Byte) : Option (Lanes n) :=
  if h : lanes.length = n then some ⟨lanes.toArray, by simp [h]⟩ else none

/-- The evaluation of a module on a list of lanes (R47). -/
def decodeLanes (m : Machine.Module) (lanes : List Byte) : Option Instr :=
  match m with
  | .pairPack => (lanesOf? 2 lanes).map .pack2x4
  | .pairUnpack => (lanesOf? 1 lanes).map .unpack2x4
  | .quadPack => (lanesOf? 4 lanes).map .pack4x6
  | .quadUnpack => (lanesOf? 3 lanes).map .unpack4x6
  | .octetPack => (lanesOf? 8 lanes).map .pack8x7
  | .octetUnpack => (lanesOf? 7 lanes).map .unpack8x7

/-- The evaluation an index and input lanes stand for; refuses by name. -/
def decode (index : Nat) (lanes : List Byte) : Except DecodeError Instr :=
  match Machine.Module.ofIndex? index with
  | none => .error (.noSuchOperation index)
  | some m =>
    match decodeLanes m lanes with
    | none => .error (.wrongLaneCount index lanes.length)
    | some i => .ok i

/-- The flat view of lanes: lane `i` at bits `[8i+7 : 8i]`, lane 0 least significant (R28). -/
def flatOfLanes : List Byte → Nat
  | [] => 0
  | b :: rest => b.toNat + 256 * flatOfLanes rest

/-- `n` lanes read back from a flat value (R28). -/
def lanesOfFlat : Nat → Nat → List Byte
  | 0, _ => []
  | n + 1, w => BitVec.ofNat 8 w :: lanesOfFlat n (w / 256)

/-- The number of lanes a flat value reaches: lane `i` is bits `[8i+7 : 8i]` (R28). -/
def flatLaneCount (flat : Nat) : Nat := Nat.log2 flat / 8 + 1

/-- The evaluation an index and a flat input value stand for (R28; the columns of `95_test_vectors.md` §3). A value
with a bit above its format's last lane (R39) carries too many lanes. -/
def decodeFlat (index flat : Nat) : Except DecodeError Instr :=
  match Machine.Module.ofIndex? index with
  | none => .error (.noSuchOperation index)
  | some m =>
    if flat < 256 ^ m.inputLanes then decode index (lanesOfFlat m.inputLanes flat)
    else .error (.wrongLaneCount index (flatLaneCount flat))

/-- What an evaluation presents at its module's input ports, lane 0 first (R23). -/
def Instr.inputs : Instr → List Byte
  | .pack2x4 s => s.toList
  | .unpack2x4 b => b.toList
  | .pack4x6 s => s.toList
  | .unpack4x6 b => b.toList
  | .pack8x7 s => s.toList
  | .unpack8x7 b => b.toList

/-- The index and the input lanes of an evaluation (R23, R47). -/
def encode (i : Instr) : Nat × List Byte := (i.module.index, i.inputs)

/-- The index and the flat input of an evaluation (R28, R47). -/
def encodeFlat (i : Instr) : Nat × Nat := (i.module.index, flatOfLanes i.inputs)

/-- The operation that reads a Packed representation of `nbits` bits (R39): formats `P1`, `P3`, `P7`. -/
def unpackIndexOfWidth : Nat → Option Nat
  | 8 => some 1
  | 24 => some 3
  | 56 => some 5
  | _ => none

/-- The evaluation a word of `spec/opcode_table.json` stands for. DESIGN CHOICE (log 7), safe: a row's `encoding` is
the Packed pattern the operation writes (pack) or reads (unpack), with no bit fixed (R47), so the two rows of one
codec have the SAME words. The word is read as what it is an input of: the unpack operation of that width. -/
def decodeTableWord (nbits w : Nat) : Option Instr :=
  match unpackIndexOfWidth nbits with
  | none => none
  | some index => (decodeFlat index w).toOption

end Sys2Proof
end

