-- ==== Sys2Proof/Machine/Operands.lean ====
section
/-! DEFINITION. From a line of the listing to an evaluation (`30_encoding.md` R51): reading its arguments, and the
literal line that stands for a given evaluation. -/

namespace Sys2Proof.Machine

/-- The value of an argument: the literal, or the named value (R51). -/
def Operand.value (named : List Byte) : Operand → Except Refusal Byte
  | .lit v => .ok v
  | .name n =>
    match named[n]? with
    | some v => .ok v
    | none => .error (.undefinedName n)

/-- The values of the arguments in lane order; the first undefined name refuses. -/
def readOperands (named : List Byte) : List Operand → Except Refusal (List Byte)
  | [] => .ok []
  | a :: rest =>
    match a.value named with
    | .error r => .error r
    | .ok v =>
      match readOperands named rest with
      | .error r => .error r
      | .ok vs => .ok (v :: vs)

/-- The name under which `step` refuses what the decoder refuses. -/
def Refusal.ofDecodeError : DecodeError → Refusal
  | .noSuchOperation index => .noSuchOperation index
  | .wrongLaneCount index lanes => .wrongLaneCount index lanes

/-- The evaluation a line stands for once its names are replaced by their values. -/
def Line.instr (named : List Byte) (l : Line) : Except Refusal Instr :=
  match readOperands named l.operands with
  | .error r => .error r
  | .ok lanes =>
    match decode l.index lanes with
    | .error e => .error (Refusal.ofDecodeError e)
    | .ok i => .ok i

/-- The line that presents an evaluation's lanes as literals. -/
def Line.ofInstr (i : Instr) : Line :=
  { index := (encode i).1, operands := (encode i).2.map Operand.lit }

/-- The line a table word stands for (log 7); a word the decoder refuses becomes a line of an index that labels no
operation. -/
def Line.ofTableWord (nbits w : Nat) : Line :=
  match decodeTableWord nbits w with
  | some i => Line.ofInstr i
  | none => { index := 6, operands := [] }

end Sys2Proof.Machine
end

