-- ==== Sys2Proof/Machine/Step.lean ====
section
/-! DEFINITION. One step is one evaluation of one operation (decision D10). -/

namespace Sys2Proof.Machine

/-- Evaluate the listing's next line. With no line left the run has ended (D10): the caller holds the inputs and the
outputs go on showing their function of them (R103, R108), so the state stays. DESIGN CHOICE (log 4), safe. -/
def step (st : State) : Host.Outcome State Fault Refusal :=
  match st.pending with
  | [] => .next st
  | line :: rest =>
    match line.instr st.named with
    | .error r => .refused r
    | .ok i => exec i { st with pending := rest }

/-- The state whose next line is the one a table word stands for (log 5, log 7). -/
def State.withFetchWord (s : State) (nbits w : Nat) : State :=
  { s with pending := Line.ofTableWord nbits w :: s.pending }

end Sys2Proof.Machine
end

