-- ==== Sys2Proof/Machine/GateLevel.lean ====
section
/-! DEFINITION. The second forms the spec gives of the six functions: the gate-level forms (`40_pair_codec.md` R57,
`41_quad_codec.md` R65, `42_octet_codec.md` R73) and the parameterised pattern of `43_common_laws.md` R75. The
machine runs the pseudocode; that these are the same functions is stated for the provers. -/

namespace Sys2Proof.Machine

/-- `v[n]`, one wire (R10). -/
abbrev wire (v : Byte) (n : Nat) : Bool := v.getLsbD n

/-- A two-input OR gate. -/
abbrev orGate (x y : Bool) : Bool := x || y

/-- A wire tied to constant 0. -/
abbrev tied : Bool := false

/-- `PACK2X4` as wiring (R57). -/
def gatePack2x4 (s : Lanes 2) : Lanes 1 :=
  #v[byteOfWires (wire s[1] 3) (wire s[1] 2) (wire s[1] 1) (wire s[1] 0)
       (wire s[0] 3) (wire s[0] 2) (wire s[0] 1) (wire s[0] 0)]

/-- `UNPACK2X4` as wiring, the high halves tied to 0 (R57). -/
def gateUnpack2x4 (b : Lanes 1) : Lanes 2 :=
  #v[byteOfWires tied tied tied tied (wire b[0] 3) (wire b[0] 2) (wire b[0] 1) (wire b[0] 0),
     byteOfWires tied tied tied tied (wire b[0] 7) (wire b[0] 6) (wire b[0] 5) (wire b[0] 4)]

/-- Block `i` of `PACK4X6` from `s[0]` and `s[i+1]`: six wires and two OR gates (R65). -/
def gateQuadBlock (s0 s1 : Byte) (i : Nat) : Byte :=
  byteOfWires (orGate (wire s1 7) (wire s0 (5 - 2 * i))) (orGate (wire s1 6) (wire s0 (4 - 2 * i)))
    (wire s1 5) (wire s1 4) (wire s1 3) (wire s1 2) (wire s1 1) (wire s1 0)

/-- `PACK4X6` as wiring and six OR gates (R65). -/
def gatePack4x6 (s : Lanes 4) : Lanes 3 :=
  #v[gateQuadBlock s[0] s[1] 0, gateQuadBlock s[0] s[2] 1, gateQuadBlock s[0] s[3] 2]

/-- Six wires with bits 7:6 tied to 0 (R65). -/
def gateLowSix (v : Byte) : Byte :=
  byteOfWires tied tied (wire v 5) (wire v 4) (wire v 3) (wire v 2) (wire v 1) (wire v 0)

/-- `UNPACK4X6` as wiring, bits 7:6 tied to 0 (R65). -/
def gateUnpack4x6 (b : Lanes 3) : Lanes 4 :=
  #v[byteOfWires tied tied (wire b[0] 7) (wire b[0] 6) (wire b[1] 7) (wire b[1] 6) (wire b[2] 7) (wire b[2] 6),
     gateLowSix b[0], gateLowSix b[1], gateLowSix b[2]]

/-- Block `i` of `PACK8X7` from `s[0]` and `s[i+1]`: seven wires and one OR gate (R73). -/
def gateOctetBlock (s0 s1 : Byte) (i : Nat) : Byte :=
  byteOfWires (orGate (wire s1 7) (wire s0 (6 - i)))
    (wire s1 6) (wire s1 5) (wire s1 4) (wire s1 3) (wire s1 2) (wire s1 1) (wire s1 0)

/-- `PACK8X7` as wiring and seven OR gates (R73). -/
def gatePack8x7 (s : Lanes 8) : Lanes 7 :=
  #v[gateOctetBlock s[0] s[1] 0, gateOctetBlock s[0] s[2] 1, gateOctetBlock s[0] s[3] 2, gateOctetBlock s[0] s[4] 3,
     gateOctetBlock s[0] s[5] 4, gateOctetBlock s[0] s[6] 5, gateOctetBlock s[0] s[7] 6]

/-- Seven wires with bit 7 tied to 0 (R73). -/
def gateLowSeven (v : Byte) : Byte :=
  byteOfWires tied (wire v 6) (wire v 5) (wire v 4) (wire v 3) (wire v 2) (wire v 1) (wire v 0)

/-- `UNPACK8X7` as wiring, bit 7 tied to 0 (R73). -/
def gateUnpack8x7 (b : Lanes 7) : Lanes 8 :=
  #v[byteOfWires tied (wire b[0] 7) (wire b[1] 7) (wire b[2] 7) (wire b[3] 7) (wire b[4] 7) (wire b[5] 7)
       (wire b[6] 7),
     gateLowSeven b[0], gateLowSeven b[1], gateLowSeven b[2], gateLowSeven b[3], gateLowSeven b[4], gateLowSeven b[5],
     gateLowSeven b[6]]

/-- R75's pack formula with g = 8 − k: `b[i] = s[i+1] | (shl8(s[0], g*(i+1)) & HI_MASK)`. -/
def patternPack {m : Nat} (g : Nat) (hi : Byte) (s : Lanes (m + 1)) : Lanes m :=
  Vector.ofFn fun i : Fin m => s[i.val + 1] ||| (shl8 s[0] (g * (i.val + 1)) &&& hi)

/-- R75's sample0: the OR over `i` of `shr8(b[i] & HI_MASK, g*(i+1))`. -/
def patternSample0 {m : Nat} (g : Nat) (hi : Byte) (b : Lanes m) : Byte :=
  (List.finRange m).foldl (fun acc i => acc ||| shr8 (b[i] &&& hi) (g * (i.val + 1))) 0

/-- R75's unpack formula: sample0 gathered, `s[i+1] = b[i] & LO_MASK`. -/
def patternUnpack {m : Nat} (g : Nat) (hi lo : Byte) (b : Lanes m) : Lanes (m + 1) :=
  Vector.ofFn fun j : Fin (m + 1) =>
    if h : j.val = 0 then patternSample0 g hi b else b[j.val - 1]'(by omega) &&& lo

end Sys2Proof.Machine
end

