-- ==== Sys2Proof/Machine/Flags.lean ====
section
/-! DEFINITION. The block has no flag, condition code or status output (`10_state.md` R20), so no flag is computed.
In their place stands the predicate the spec states laws with, which no operation tests and no output reports
(`43_common_laws.md` R87, decision D6). -/

namespace Sys2Proof.Machine

/-- `InRange_k(v)`: `v ≤ 2^k − 1` (R87). -/
abbrev InRange (k : Nat) (v : Byte) : Prop := v.toNat ≤ 2 ^ k - 1

/-- A Group is in range when every one of its Samples is (R87). -/
abbrev GroupInRange {n : Nat} (k : Nat) (s : Lanes n) : Prop := ∀ j : Fin n, InRange k s[j]

end Sys2Proof.Machine
end

