-- ==== Sys2Proof/WellFormed.lean ====
section
/-! DEFINITION. When a listing has a meaning (`30_encoding.md` R51, `20_memory.md` R30, `70_reset_and_hazards.md`
R109). An `Instr` needs no check: its type fixes the number of lanes and no lane value is illegal (R48). -/

namespace Sys2Proof.Machine

/-- A literal always reads; a name must be among the `defined` names of earlier lines (R51). A line that named its
own result would be a loop through a module (R109). -/
def Operand.wellFormed (defined : Nat) : Operand → Bool
  | .lit _ => true
  | .name n => decide (n < defined)

/-- The index labels a module (R47, D12), every input lane has an argument and no more (R30), and every name used
is an earlier one. -/
def Line.wellFormed (defined : Nat) (l : Line) : Bool :=
  match Module.ofIndex? l.index with
  | none => false
  | some m => l.operands.length == m.inputLanes && l.operands.all (Operand.wellFormed defined)

/-- How many names a line defines: one for each output lane of its module (R51). -/
def Line.definedNames (l : Line) : Nat :=
  match Module.ofIndex? l.index with
  | none => 0
  | some m => m.outputLanes

/-- A listing is a feed-forward network (R51, R109): each line is well formed where it stands. -/
def listingWellFormed (defined : Nat) : List Line → Bool
  | [] => true
  | l :: rest => l.wellFormed defined && listingWellFormed (defined + l.definedNames) rest

end Sys2Proof.Machine
end

