-- ==== Sys2Proof/Safety.lean ====
section
/-! DEFINITION. What holds of a state the hardware can be in, and what makes a run safe, in the terms the statements
use. -/

namespace Sys2Proof.Machine

/-- A module's outputs are its function of its inputs (R17). -/
abbrev Ports.Follows {n m : Nat} (f : Lanes n → Lanes m) (p : Ports n m) : Prop := p.out = f p.inp

/-- "The outputs of every module are, at all times, the function of its inputs" (R103, R17). -/
structure State.OutputsFollow (st : State) : Prop where
  pairPack : st.pairPack.Follows pack2x4
  pairUnpack : st.pairUnpack.Follows unpack2x4
  quadPack : st.quadPack.Follows pack4x6
  quadUnpack : st.quadUnpack.Follows unpack4x6
  octetPack : st.octetPack.Follows pack8x7
  octetUnpack : st.octetUnpack.Follows unpack8x7

/-- What is left of the listing is a feed-forward network over the values named so far (R51, R109). -/
abbrev State.ListingOk (st : State) : Prop := listingWellFormed st.named.length st.pending = true

/-- `x` with bit `j` of lane `i` inverted. -/
def flipBit {n : Nat} (x : Lanes n) (i : Fin n) (j : Nat) : Lanes n := x.set i (x[i] ^^^ BitVec.twoPow 8 j)

/-- The bits set in `mask` are the live input bits of `f`, the others its ignored ones: "A bit of an input is ignored
when no output bit depends on it, live otherwise" (R49). -/
def ExactlyLive {n m : Nat} (f : Lanes n → Lanes m) (mask : Lanes n) : Prop :=
  (∀ x y : Lanes n, (∀ i : Fin n, x[i] &&& mask[i] = y[i] &&& mask[i]) → f x = f y) ∧
    ∀ (i : Fin n) (j : Nat), mask[i].getLsbD j = true → ∃ x, f (flipBit x i j) ≠ f x

/-- How many bits are set in `mask`, R49's count column. -/
def bitCount {n : Nat} (mask : Lanes n) : Nat :=
  (mask.toList.map fun v => (List.range 8).countP fun j => v.getLsbD j).sum

/-- Output lane `i` of `f` depends on input lane `j` (R83). -/
def DependsOnLane {n m : Nat} (f : Lanes n → Lanes m) (i : Fin m) (j : Fin n) : Prop :=
  ∃ (x : Lanes n) (v : Byte), (f (x.set j v))[i] ≠ (f x)[i]

/-- `x` and `y` differ at most in the bits set in `mask`: two values an input with those bits unknown may have
(R104). -/
def AgreeOutside {n : Nat} (mask x y : Lanes n) : Prop :=
  ∀ i : Fin n, x[i] &&& ~~~mask[i] = y[i] &&& ~~~mask[i]

/-- Bit `j` of output lane `i` is not determined when the input bits set in `mask` are unknown and all others
known (R104). -/
def UnknownAt {n m : Nat} (f : Lanes n → Lanes m) (mask : Lanes n) (i : Fin m) (j : Nat) : Prop :=
  ∃ x y : Lanes n, AgreeOutside mask x y ∧ (f x)[i].getLsbD j ≠ (f y)[i].getLsbD j

/-- `pack` restricted to in-range Groups is a bijection onto all Packed representations and `unpack` is its inverse;
outside them `pack` is many-to-one (R88). -/
structure CodecBijective {n m : Nat} (k : Nat) (pack : Lanes n → Lanes m) (unpack : Lanes m → Lanes n) : Prop where
  bijOn : Set.BijOn pack {s : Lanes n | GroupInRange k s} Set.univ
  invOn : Set.InvOn unpack pack {s : Lanes n | GroupInRange k s} Set.univ
  notInjective : ¬ Function.Injective pack

end Sys2Proof.Machine
end

