-- ==== Sys2Proof/Certificates/Slice0/Obligations.lean ====
section
/-! DEFINITION. The statements about the model, for the provers. In a docstring, "the spec's own inference" marks what
the spec itself marks `[derived: ...]`, and "model's choice" what rests on a log entry. -/

open Sys2Proof Sys2Proof.Machine

/-! ### Results of the six operations -/

/-- R53: the pseudocode of `PACK2X4`, and its bit-by-bit form (the spec's own inference from it). It completes on
every input in every state. -/
def Obligations.Pack2x4Result : Prop :=
  ∀ (s : Lanes 2) (st : State), ∃ t, exec (.pack2x4 s) st = .next t ∧ t.pairPack.inp = s ∧
    t.pairPack.out[0] = shl8 s[1] 4 ||| (s[0] &&& 0x0F) ∧
    ∀ j < 4, t.pairPack.out[0].getLsbD j = s[0].getLsbD j ∧ t.pairPack.out[0].getLsbD (j + 4) = s[1].getLsbD j

/-- R54: the pseudocode of `UNPACK2X4` and its bit-by-bit form (the spec's own inference from it). It completes on
every input in every state. -/
def Obligations.Unpack2x4Result : Prop :=
  ∀ (b : Lanes 1) (st : State), ∃ t, exec (.unpack2x4 b) st = .next t ∧ t.pairUnpack.inp = b ∧
    t.pairUnpack.out[0] = b[0] &&& 0x0F ∧ t.pairUnpack.out[1] = shr8 b[0] 4 ∧
    ∀ j < 4,
      t.pairUnpack.out[0].getLsbD j = b[0].getLsbD j ∧ t.pairUnpack.out[0].getLsbD (j + 4) = false ∧
      t.pairUnpack.out[1].getLsbD j = b[0].getLsbD (j + 4) ∧ t.pairUnpack.out[1].getLsbD (j + 4) = false

/-- R59: the pseudocode of `PACK4X6`, its bit-by-bit form (the spec's own inference from it), and the form for an
in-range Group. It completes on every input in every state. -/
def Obligations.Pack4x6Result : Prop :=
  ∀ (s : Lanes 4) (st : State), ∃ t, exec (.pack4x6 s) st = .next t ∧ t.quadPack.inp = s ∧
    ∀ i : Fin 3,
      t.quadPack.out[i] = s[i.val + 1] ||| (shl8 s[0] (2 * (i.val + 1)) &&& 0xC0) ∧
      (∀ j < 6, t.quadPack.out[i].getLsbD j = s[i.val + 1].getLsbD j) ∧
      t.quadPack.out[i].getLsbD 7 = (s[i.val + 1].getLsbD 7 || s[0].getLsbD (5 - 2 * i.val)) ∧
      t.quadPack.out[i].getLsbD 6 = (s[i.val + 1].getLsbD 6 || s[0].getLsbD (4 - 2 * i.val)) ∧
      (GroupInRange 6 s →
        t.quadPack.out[i].getLsbD 7 = s[0].getLsbD (5 - 2 * i.val) ∧
        t.quadPack.out[i].getLsbD 6 = s[0].getLsbD (4 - 2 * i.val))

/-- R60: the pseudocode of `UNPACK4X6` and its bit-by-bit form (the spec's own inference from it). It completes on
every input in every state. -/
def Obligations.Unpack4x6Result : Prop :=
  ∀ (b : Lanes 3) (st : State), ∃ t, exec (.unpack4x6 b) st = .next t ∧ t.quadUnpack.inp = b ∧
    t.quadUnpack.out[0] = shr8 (b[0] &&& 0xC0) 2 ||| shr8 (b[1] &&& 0xC0) 4 ||| shr8 (b[2] &&& 0xC0) 6 ∧
    t.quadUnpack.out[0] = byteOfWires false false (b[0].getLsbD 7) (b[0].getLsbD 6) (b[1].getLsbD 7)
      (b[1].getLsbD 6) (b[2].getLsbD 7) (b[2].getLsbD 6) ∧
    ∀ i : Fin 3,
      t.quadUnpack.out[i.val + 1] = b[i] &&& 0x3F ∧
      (∀ j < 6, t.quadUnpack.out[i.val + 1].getLsbD j = b[i].getLsbD j) ∧
      t.quadUnpack.out[i.val + 1].getLsbD 6 = false ∧ t.quadUnpack.out[i.val + 1].getLsbD 7 = false

/-- R67: the pseudocode of `PACK8X7`, its bit-by-bit form (the spec's own inference from it), and the form for an
in-range Group. It completes on every input in every state. -/
def Obligations.Pack8x7Result : Prop :=
  ∀ (s : Lanes 8) (st : State), ∃ t, exec (.pack8x7 s) st = .next t ∧ t.octetPack.inp = s ∧
    ∀ i : Fin 7,
      t.octetPack.out[i] = s[i.val + 1] ||| (shl8 s[0] (i.val + 1) &&& 0x80) ∧
      (∀ j < 7, t.octetPack.out[i].getLsbD j = s[i.val + 1].getLsbD j) ∧
      t.octetPack.out[i].getLsbD 7 = (s[i.val + 1].getLsbD 7 || s[0].getLsbD (6 - i.val)) ∧
      (GroupInRange 7 s → t.octetPack.out[i].getLsbD 7 = s[0].getLsbD (6 - i.val))

/-- R68: the pseudocode of `UNPACK8X7` and its bit-by-bit form (the spec's own inference from it). It completes on
every input in every state. -/
def Obligations.Unpack8x7Result : Prop :=
  ∀ (b : Lanes 7) (st : State), ∃ t, exec (.unpack8x7 b) st = .next t ∧ t.octetUnpack.inp = b ∧
    t.octetUnpack.out[0] =
      (shr8 (b[0] &&& 0x80) 1 ||| shr8 (b[1] &&& 0x80) 2 ||| shr8 (b[2] &&& 0x80) 3 ||| shr8 (b[3] &&& 0x80) 4
        ||| shr8 (b[4] &&& 0x80) 5 ||| shr8 (b[5] &&& 0x80) 6 ||| shr8 (b[6] &&& 0x80) 7) ∧
    t.octetUnpack.out[0] = byteOfWires false (b[0].getLsbD 7) (b[1].getLsbD 7) (b[2].getLsbD 7) (b[3].getLsbD 7)
      (b[4].getLsbD 7) (b[5].getLsbD 7) (b[6].getLsbD 7) ∧
    ∀ i : Fin 7,
      t.octetUnpack.out[i.val + 1] = b[i] &&& 0x7F ∧
      (∀ j < 7, t.octetUnpack.out[i.val + 1].getLsbD j = b[i].getLsbD j) ∧
      t.octetUnpack.out[i.val + 1].getLsbD 7 = false

/-! ### What holds of every evaluation -/

/-- Each evaluation completes in every state, with the inputs on its module's ports, the module's function of them on
its outputs, the outputs named in lane order, and nothing else changed. That the outputs are named is the model's
choice (log 3); so is that the ports of the other modules hold what they show (log 9). -/
def Obligations.EvaluationPresentsAndNames : Prop :=
  ∀ st : State,
    (∀ s, exec (.pack2x4 s) st =
      .next { st with pairPack := ⟨s, pack2x4 s⟩, named := st.named ++ (pack2x4 s).toList }) ∧
    (∀ b, exec (.unpack2x4 b) st =
      .next { st with pairUnpack := ⟨b, unpack2x4 b⟩, named := st.named ++ (unpack2x4 b).toList }) ∧
    (∀ s, exec (.pack4x6 s) st =
      .next { st with quadPack := ⟨s, pack4x6 s⟩, named := st.named ++ (pack4x6 s).toList }) ∧
    (∀ b, exec (.unpack4x6 b) st =
      .next { st with quadUnpack := ⟨b, unpack4x6 b⟩, named := st.named ++ (unpack4x6 b).toList }) ∧
    (∀ s, exec (.pack8x7 s) st =
      .next { st with octetPack := ⟨s, pack8x7 s⟩, named := st.named ++ (pack8x7 s).toList }) ∧
    ∀ b, exec (.unpack8x7 b) st =
      .next { st with octetUnpack := ⟨b, unpack8x7 b⟩, named := st.named ++ (unpack8x7 b).toList }

/-- R78: "Every operation is defined on every input and always completes", pack giving the value of its formula
whatever the range, and unpack outputs having bits `[7:k]` zero for every input. -/
def Obligations.EveryEvaluationCompletesInRange : Prop :=
  (∀ (i : Instr) (st : State), ∃ t, exec i st = .next t ∧ t.inputs i.module = i.inputs) ∧
  (∀ (s : Lanes 2) (st : State), ∃ t, exec (.pack2x4 s) st = .next t ∧
    t.pairPack.out[0] = shl8 s[1] 4 ||| (s[0] &&& 0x0F)) ∧
  (∀ (s : Lanes 4) (st : State), ∃ t, exec (.pack4x6 s) st = .next t ∧
    ∀ i : Fin 3, t.quadPack.out[i] = s[i.val + 1] ||| (shl8 s[0] (2 * (i.val + 1)) &&& 0xC0)) ∧
  (∀ (s : Lanes 8) (st : State), ∃ t, exec (.pack8x7 s) st = .next t ∧
    ∀ i : Fin 7, t.octetPack.out[i] = s[i.val + 1] ||| (shl8 s[0] (i.val + 1) &&& 0x80)) ∧
  (∀ (b : Lanes 1) (st : State), ∃ t, exec (.unpack2x4 b) st = .next t ∧
    GroupInRange 4 t.pairUnpack.out ∧ ∀ j : Fin 2, shr8 t.pairUnpack.out[j] 4 = 0) ∧
  (∀ (b : Lanes 3) (st : State), ∃ t, exec (.unpack4x6 b) st = .next t ∧
    GroupInRange 6 t.quadUnpack.out ∧ ∀ j : Fin 4, shr8 t.quadUnpack.out[j] 6 = 0) ∧
  ∀ (b : Lanes 7) (st : State), ∃ t, exec (.unpack8x7 b) st = .next t ∧
    GroupInRange 7 t.octetUnpack.out ∧ ∀ j : Fin 8, shr8 t.octetUnpack.out[j] 7 = 0

/-- R89: no operation raises anything, for any input in any state: no fault and no refusal. -/
def Obligations.NoOperationRaisesAnything : Prop :=
  ∀ (i : Instr) (st : State), (∀ r, exec i st ≠ .fault r) ∧ ∀ r, exec i st ≠ .refused r

/-- The frame of every evaluation. The evaluated module's outputs depend on its inputs only (43_common_laws.md §1, R76).
The model's choice: every port of every other module is unchanged, the caller holding its inputs (log 9); the listing
left is unchanged, and the names of before keep their values (log 3). -/
def Obligations.EvaluationLeavesOtherModulesAlone : Prop :=
  ∀ (i : Instr) (st t : State), exec i st = .next t →
    (∀ m, m ≠ i.module → t.inputs m = st.inputs m ∧ t.outputs m = st.outputs m) ∧
    (∀ st' t', exec i st' = .next t' → t'.outputs i.module = t.outputs i.module) ∧
    t.pending = st.pending ∧
    t.named = st.named ++ t.outputs i.module

/-- R77: "repeated calls with identical input produce bit-identical output", whatever the states they are made in, so
whatever was evaluated before the first and, if anything, between the two. -/
def Obligations.SameInputSameOutput : Prop :=
  ∀ (i : Instr) (s t u v : State), exec i s = .next t → exec i u = .next v →
    v.outputs i.module = t.outputs i.module

/-- Evaluations of two modules leave the same values on all ports in either order. 20_memory.md §2, R34 (c), says of the
values computed that they do not depend on the order. That each module's ports go on showing them while the other is
evaluated is the model's choice (log 9); the order of the names is the caller's (model's choice, log 3). -/
def Obligations.EvaluationsOfTwoModulesCommute : Prop :=
  ∀ (i j : Instr) (st : State), i.module ≠ j.module → ∃ t u t' u',
    exec i st = .next t ∧ exec j t = .next u ∧ exec j st = .next t' ∧ exec i t' = .next u' ∧
    ∀ m, u.inputs m = u'.inputs m ∧ u.outputs m = u'.outputs m

/-! ### The primitives -/

/-- R80: `shl8(v, n)` is `(v × 2^n) mod 256`, bit by bit; shifted and masked at any greater width, with the masks of the
Quad and Octet pack, the result is the same (the spec's own inference); every shift distance of the block lies between
1 and 7. -/
def Obligations.LeftShiftKeptToEightBits : Prop :=
  (∀ (v : Byte) (n : Nat), n ≤ 7 →
    (shl8 v n).toNat = v.toNat * 2 ^ n % 256 ∧
    (∀ j < 8, (shl8 v n).getLsbD j = if n ≤ j then v.getLsbD (j - n) else false) ∧
    (∀ w, 8 ≤ w → (v.setWidth w <<< n) &&& quadMaskHi.setWidth w = (shl8 v n &&& quadMaskHi).setWidth w) ∧
    ∀ w, 8 ≤ w → (v.setWidth w <<< n) &&& octetMaskHi.setWidth w = (shl8 v n &&& octetMaskHi).setWidth w) ∧
  (1 ≤ pairShift ∧ pairShift ≤ 7) ∧
  (∀ i < 3, 1 ≤ quadShift i ∧ quadShift i ≤ 7) ∧
  ∀ i < 7, 1 ≤ octetShift i ∧ octetShift i ≤ 7

/-- R81: `shr8(v, n)` is `floor(v / 2^n)`, bit by bit, zeros entering from the top; the distances are 4, then 2, 4, 6,
then 1 to 7, and in the last two the operand is first masked to its top 2 bits or top bit. -/
def Obligations.RightShiftIsLogical : Prop :=
  (∀ (v : Byte) (n : Nat), n ≤ 7 →
    (shr8 v n).toNat = v.toNat / 2 ^ n ∧
    ∀ j < 8, (shr8 v n).getLsbD j = if j ≤ 7 - n then v.getLsbD (j + n) else false) ∧
  pairShift = 4 ∧
  (List.range 3).map quadShift = [2, 4, 6] ∧
  (List.range 7).map octetShift = [1, 2, 3, 4, 5, 6, 7] ∧
  (∀ v : Byte, v &&& quadMaskHi = shl8 (shr8 v 6) 6) ∧
  ∀ v : Byte, v &&& octetMaskHi = shl8 (shr8 v 7) 7

/-! ### Laws of the codecs -/

/-- R55: `unpack(pack(sample0, sample1)) == (sample0, sample1)` for Samples in [0,15], all 8 bits compared; the second
evaluation is presented what the first one's output ports show. -/
def Obligations.PairRoundTrip : Prop :=
  ∀ (s : Lanes 2) (st : State), GroupInRange 4 s →
    ∃ t u, exec (.pack2x4 s) st = .next t ∧ exec (.unpack2x4 t.pairPack.out) t = .next u ∧ u.pairUnpack.out = s

/-- R61: the Quad round trip, for Samples in [0,63]. -/
def Obligations.QuadRoundTrip : Prop :=
  ∀ (s : Lanes 4) (st : State), GroupInRange 6 s →
    ∃ t u, exec (.pack4x6 s) st = .next t ∧ exec (.unpack4x6 t.quadPack.out) t = .next u ∧ u.quadUnpack.out = s

/-- R69: the Octet round trip, for Samples in [0,127]. -/
def Obligations.OctetRoundTrip : Prop :=
  ∀ (s : Lanes 8) (st : State), GroupInRange 7 s →
    ∃ t u, exec (.pack8x7 s) st = .next t ∧ exec (.unpack8x7 t.octetPack.out) t = .next u ∧ u.octetUnpack.out = s

/-- R56: `PACK2X4` equals itself on the Samples masked to four bits, for every input; what comes back is those
(the spec's own inference); and the truncation is local to each Sample. -/
def Obligations.PairTruncatesEachSample : Prop :=
  ∀ s : Lanes 2,
    pack2x4 s = pack2x4 #v[s[0] &&& 0x0F, s[1] &&& 0x0F] ∧
    unpack2x4 (pack2x4 s) = #v[s[0] &&& 0x0F, s[1] &&& 0x0F] ∧
    (∀ (v : Byte) (j : Nat), j < 4 → (pack2x4 #v[s[0], v])[0].getLsbD j = (pack2x4 s)[0].getLsbD j) ∧
    ∀ (v : Byte) (j : Nat), 4 ≤ j → (pack2x4 #v[v, s[1]])[0].getLsbD j = (pack2x4 s)[0].getLsbD j

/-- R62: bits `[7:6]` of `s[1]`..`s[3]` are ORed into the bits that carry sample0, they are not masked away, the low
six bits are unaffected, unpack returns those Samples truncated, and masking them would be another function. -/
def Obligations.QuadHighBitsOverlapSample0 : Prop :=
  (∀ (s : Lanes 4) (i : Fin 3),
    (pack4x6 s)[i] =
      (pack4x6 #v[s[0], s[1] &&& 0x3F, s[2] &&& 0x3F, s[3] &&& 0x3F])[i] ||| (s[i.val + 1] &&& 0xC0) ∧
    (pack4x6 s)[i] &&& 0x3F = s[i.val + 1] &&& 0x3F ∧
    (unpack4x6 (pack4x6 s))[i.val + 1] = s[i.val + 1] &&& 0x3F) ∧
  (∃ s : Lanes 4, pack4x6 s ≠ pack4x6 #v[s[0], s[1] &&& 0x3F, s[2] &&& 0x3F, s[3] &&& 0x3F]) ∧
  pack4x6 #v[0x27, 0x5A, 0x3E, 0x11] = #v[0xDA, 0x7E, 0xD1] ∧
  pack4x6 #v[0x27, 0x1A, 0x3E, 0x11] = #v[0x9A, 0x7E, 0xD1] ∧
  unpack4x6 #v[0xDA, 0x7E, 0xD1] = #v[0x37, 0x1A, 0x3E, 0x11]

/-- R70: bit 7 of `s[1]`..`s[7]` is ORed into the bit that carries sample0, it is not masked away, the low seven bits
are unaffected, unpack returns those Samples truncated, and masking them would be another function. -/
def Obligations.OctetHighBitOverlapsSample0 : Prop :=
  (∀ (s : Lanes 8) (i : Fin 7),
    (pack8x7 s)[i] =
      (pack8x7 #v[s[0], s[1] &&& 0x7F, s[2] &&& 0x7F, s[3] &&& 0x7F, s[4] &&& 0x7F, s[5] &&& 0x7F, s[6] &&& 0x7F,
        s[7] &&& 0x7F])[i] ||| (s[i.val + 1] &&& 0x80) ∧
    (pack8x7 s)[i] &&& 0x7F = s[i.val + 1] &&& 0x7F ∧
    (unpack8x7 (pack8x7 s))[i.val + 1] = s[i.val + 1] &&& 0x7F) ∧
  (∃ s : Lanes 8, pack8x7 s ≠
    pack8x7 #v[s[0], s[1] &&& 0x7F, s[2] &&& 0x7F, s[3] &&& 0x7F, s[4] &&& 0x7F, s[5] &&& 0x7F, s[6] &&& 0x7F,
      s[7] &&& 0x7F]) ∧
  pack8x7 #v[0x12, 0xA5, 0x36, 0x49, 0x5A, 0x6C, 0x7E, 0x1F] = #v[0xA5, 0x36, 0xC9, 0x5A, 0x6C, 0xFE, 0x1F] ∧
  (pack8x7 #v[0x12, 0x25, 0x36, 0x49, 0x5A, 0x6C, 0x7E, 0x1F])[0] = 0x25 ∧
  (unpack8x7 #v[0xA5, 0x36, 0xC9, 0x5A, 0x6C, 0xFE, 0x1F])[0] = 0x52 ∧
  (unpack8x7 #v[0xA5, 0x36, 0xC9, 0x5A, 0x6C, 0xFE, 0x1F])[1] = 0x25 ∧
  pack8x7 #v[0x12, 0x25, 0x36, 0xC9, 0x5A, 0x6C, 0x7E, 0x1F] =
    pack8x7 #v[0x12, 0x25, 0x36, 0x49, 0x5A, 0x6C, 0x7E, 0x1F]

/-- `41_quad_codec.md` R63, the spec's own inference: `s[0][7:6]` reach no output of `PACK4X6`; an out-of-range `s[0]`
comes back as `s[0] & 0x3F` and disturbs no other Sample. -/
def Obligations.QuadSample0Truncated : Prop :=
  ∀ s : Lanes 4,
    pack4x6 s = pack4x6 (s.set 0 (s[0] &&& 0x3F)) ∧
    ((∀ i : Fin 3, InRange 6 s[i.val + 1]) → unpack4x6 (pack4x6 s) = s.set 0 (s[0] &&& 0x3F))

/-- `42_octet_codec.md` R71, the spec's own inference: `s[0][7]` reaches no output of `PACK8X7`; an out-of-range `s[0]`
comes back as `s[0] & 0x7F` and disturbs no other Sample. -/
def Obligations.OctetSample0Truncated : Prop :=
  ∀ s : Lanes 8,
    pack8x7 s = pack8x7 (s.set 0 (s[0] &&& 0x7F)) ∧
    ((∀ i : Fin 7, InRange 7 s[i.val + 1]) → unpack8x7 (pack8x7 s) = s.set 0 (s[0] &&& 0x7F))

/-- `41_quad_codec.md` R64, the spec's own inference: unpack after pack, for every input. -/
def Obligations.QuadUnpackAfterPack : Prop :=
  ∀ s : Lanes 4,
    unpack4x6 (pack4x6 s) =
      #v[(s[0] &&& (0x3F : Byte)) ||| shl8 (shr8 s[1] 6) 4 ||| shl8 (shr8 s[2] 6) 2 ||| shr8 s[3] 6,
         s[1] &&& 0x3F, s[2] &&& 0x3F, s[3] &&& 0x3F]

/-- `42_octet_codec.md` R72, the spec's own inference: unpack after pack, for every input. -/
def Obligations.OctetUnpackAfterPack : Prop :=
  ∀ (s : Lanes 8) (i : Fin 7),
    (unpack8x7 (pack8x7 s))[0].getLsbD (6 - i.val) = (s[0].getLsbD (6 - i.val) || s[i.val + 1].getLsbD 7) ∧
    (unpack8x7 (pack8x7 s))[0].getLsbD 7 = false ∧
    (unpack8x7 (pack8x7 s))[i.val + 1] = s[i.val + 1] &&& 0x7F

/-- `40_pair_codec.md` R57, the spec's own inference: wiring and pseudocode are the same functions. -/
def Obligations.PairGateLevelForm : Prop := pack2x4 = gatePack2x4 ∧ unpack2x4 = gateUnpack2x4

/-- `41_quad_codec.md` R65, the spec's own inference: six OR gates, wiring for unpack. -/
def Obligations.QuadGateLevelForm : Prop := pack4x6 = gatePack4x6 ∧ unpack4x6 = gateUnpack4x6

/-- `42_octet_codec.md` R73, the spec's own inference: seven OR gates, wiring for unpack. -/
def Obligations.OctetGateLevelForm : Prop := pack8x7 = gatePack8x7 ∧ unpack8x7 = gateUnpack8x7

/-- `40_pair_codec.md` R58, the spec's own inference: pack after unpack is the identity, the codec is bijective between
in-range Groups and Blocks, and `PACK2X4` is 256-to-one: the Groups that give a Block are one for each choice of the
eight ignored bits. -/
def Obligations.PairPackAfterUnpack : Prop :=
  (∀ b : Lanes 1, pack2x4 (unpack2x4 b) = b) ∧
  CodecBijective 4 pack2x4 unpack2x4 ∧
  ∀ (b : Lanes 1) (s : Lanes 2), pack2x4 s = b ↔
    ∃! h : Fin 16 × Fin 16,
      s[0].toNat = 16 * h.1.val + b[0].toNat % 16 ∧ s[1].toNat = 16 * h.2.val + b[0].toNat / 16

/-- `41_quad_codec.md` R66, the spec's own inference: pack after unpack is the identity and the codec is bijective
between in-range Groups and Packed representations, not injective on all inputs. -/
def Obligations.QuadPackAfterUnpack : Prop :=
  (∀ b : Lanes 3, pack4x6 (unpack4x6 b) = b) ∧ CodecBijective 6 pack4x6 unpack4x6

/-- `42_octet_codec.md` R74, the spec's own inference: as for the Quad codec. -/
def Obligations.OctetPackAfterUnpack : Prop :=
  (∀ b : Lanes 7, pack8x7 (unpack8x7 b) = b) ∧ CodecBijective 7 pack8x7 unpack8x7

/-- `43_common_laws.md` R75, the spec's own inference: the Quad and Octet codecs are one parameterised pattern. -/
def Obligations.QuadAndOctetShareOnePattern : Prop :=
  (∀ s, pack4x6 s = patternPack 2 0xC0 s) ∧ (∀ b, unpack4x6 b = patternUnpack 2 0xC0 0x3F b) ∧
  (∀ s, pack8x7 s = patternPack 1 0x80 s) ∧ ∀ b, unpack8x7 b = patternUnpack 1 0x80 0x7F b

/-! ### Which input bits reach which output bits -/

/-- `30_encoding.md` R49, the spec's own inference: the live and ignored input bits of each operation, and how many
are live. -/
def Obligations.LiveInputBits : Prop :=
  ExactlyLive pack2x4 #v[0x0F, 0x0F] ∧ bitCount #v[0x0F, 0x0F] = 8 ∧
  ExactlyLive pack4x6 #v[0x3F, 0xFF, 0xFF, 0xFF] ∧ bitCount #v[0x3F, 0xFF, 0xFF, 0xFF] = 30 ∧
  ExactlyLive pack8x7 #v[0x7F, 0xFF, 0xFF, 0xFF, 0xFF, 0xFF, 0xFF, 0xFF] ∧
  bitCount #v[0x7F, 0xFF, 0xFF, 0xFF, 0xFF, 0xFF, 0xFF, 0xFF] = 63 ∧
  ExactlyLive unpack2x4 #v[0xFF] ∧
  ExactlyLive unpack4x6 #v[0xFF, 0xFF, 0xFF] ∧
  ExactlyLive unpack8x7 #v[0xFF, 0xFF, 0xFF, 0xFF, 0xFF, 0xFF, 0xFF]

/-- `43_common_laws.md` R83, the spec's own inference: the exact lane dependencies. -/
def Obligations.LaneDependencies : Prop :=
  (∀ i j, DependsOnLane pack2x4 i j) ∧
  (∀ i j, DependsOnLane unpack2x4 i j) ∧
  (∀ i j, DependsOnLane pack4x6 i j ↔ j.val = 0 ∨ j.val = i.val + 1) ∧
  (∀ i j, DependsOnLane unpack4x6 i j ↔ i.val = 0 ∨ i.val = j.val + 1) ∧
  (∀ i j, DependsOnLane pack8x7 i j ↔ j.val = 0 ∨ j.val = i.val + 1) ∧
  ∀ i j, DependsOnLane unpack8x7 i j ↔ i.val = 0 ∨ i.val = j.val + 1

/-- Unknown inputs (`70_reset_and_hazards.md` §1, decision D9: unknown exactly the outputs that depend on an unknown
bit): with the input bits of `mask` unknown, the output bits not determined are exactly the bits the operation itself
computes from `mask`. The model represents no unknown value (log 10); this is said of its functions. -/
def Obligations.UnknownBitsReachExactlyDependentOutputs : Prop :=
  (∀ mask i j, UnknownAt pack2x4 mask i j ↔ (pack2x4 mask)[i].getLsbD j = true) ∧
  (∀ mask i j, UnknownAt unpack2x4 mask i j ↔ (unpack2x4 mask)[i].getLsbD j = true) ∧
  (∀ mask i j, UnknownAt pack4x6 mask i j ↔ (pack4x6 mask)[i].getLsbD j = true) ∧
  (∀ mask i j, UnknownAt unpack4x6 mask i j ↔ (unpack4x6 mask)[i].getLsbD j = true) ∧
  (∀ mask i j, UnknownAt pack8x7 mask i j ↔ (pack8x7 mask)[i].getLsbD j = true) ∧
  ∀ mask i j, UnknownAt unpack8x7 mask i j ↔ (unpack8x7 mask)[i].getLsbD j = true

/-! ### The bit layouts -/

/-- R41: bits 3:0 of the Block carry sample0, bits 7:4 sample1, both ways. -/
def Obligations.PairLayout : Prop :=
  (∀ (s : Lanes 2) (j : Nat), j < 4 →
    (pack2x4 s)[0].getLsbD j = s[0].getLsbD j ∧ (pack2x4 s)[0].getLsbD (j + 4) = s[1].getLsbD j) ∧
  ∀ (b : Lanes 1) (j : Nat), j < 4 →
    (unpack2x4 b)[0].getLsbD j = b[0].getLsbD j ∧ (unpack2x4 b)[1].getLsbD j = b[0].getLsbD (j + 4)

/-- R42: in the flat view, bit `8i+j` of an in-range Group's Packed representation carries `s[i+1][j]` for j below 6,
and bits `8i+6`, `8i+7` carry `s[0][4−2i]`, `s[0][5−2i]`; unpack reads the same bits back; the source's vector fixes
the direction. -/
def Obligations.QuadLayout : Prop :=
  (∀ (s : Lanes 4) (i : Fin 3), GroupInRange 6 s →
    (∀ j < 6, (flatOfLanes (pack4x6 s).toList).testBit (8 * i.val + j) = s[i.val + 1].getLsbD j) ∧
    (flatOfLanes (pack4x6 s).toList).testBit (8 * i.val + 6) = s[0].getLsbD (4 - 2 * i.val) ∧
    (flatOfLanes (pack4x6 s).toList).testBit (8 * i.val + 7) = s[0].getLsbD (5 - 2 * i.val)) ∧
  (∀ (b : Lanes 3) (i : Fin 3),
    (∀ j < 6, (unpack4x6 b)[i.val + 1].getLsbD j = (flatOfLanes b.toList).testBit (8 * i.val + j)) ∧
    (unpack4x6 b)[0].getLsbD (4 - 2 * i.val) = (flatOfLanes b.toList).testBit (8 * i.val + 6) ∧
    (unpack4x6 b)[0].getLsbD (5 - 2 * i.val) = (flatOfLanes b.toList).testBit (8 * i.val + 7)) ∧
  pack4x6 #v[0b100111, 0b011010, 0b111110, 0b010001] = #v[0b10011010, 0b01111110, 0b11010001]

/-- R43: in the flat view, bit `8i+j` of an in-range Group's Packed representation carries `s[i+1][j]` for j below 7,
and bit `8i+7` carries `s[0][6−i]`; unpack reads the same bits back; the source's vector fixes the direction. -/
def Obligations.OctetLayout : Prop :=
  (∀ (s : Lanes 8) (i : Fin 7), GroupInRange 7 s →
    (∀ j < 7, (flatOfLanes (pack8x7 s).toList).testBit (8 * i.val + j) = s[i.val + 1].getLsbD j) ∧
    (flatOfLanes (pack8x7 s).toList).testBit (8 * i.val + 7) = s[0].getLsbD (6 - i.val)) ∧
  (∀ (b : Lanes 7) (i : Fin 7),
    (∀ j < 7, (unpack8x7 b)[i.val + 1].getLsbD j = (flatOfLanes b.toList).testBit (8 * i.val + j)) ∧
    (unpack8x7 b)[0].getLsbD (6 - i.val) = (flatOfLanes b.toList).testBit (8 * i.val + 7)) ∧
  pack8x7 #v[0b0010010, 0b0100101, 0b0110110, 0b1001001, 0b1011010, 0b1101100, 0b1111110, 0b0011111] =
    #v[0b00100101, 0b00110110, 0b11001001, 0b01011010, 0b01101100, 0b11111110, 0b00011111]

/-- R44: sample0's contribution to Block `i` of the Quad codec, bit by bit, and its reassembly on unpack as three
disjoint pairs. -/
def Obligations.QuadSample0Assembly : Prop :=
  (∀ (s : Lanes 4) (i : Fin 3), (pack4x6 (#v[s[0], 0, 0, 0]))[i] = shl8 s[0] (2 * (i.val + 1)) &&& 0xC0 ∧
    (shl8 s[0] (2 * (i.val + 1)) &&& 0xC0).getLsbD 7 = s[0].getLsbD (5 - 2 * i.val) ∧
    (shl8 s[0] (2 * (i.val + 1)) &&& 0xC0).getLsbD 6 = s[0].getLsbD (4 - 2 * i.val) ∧
    (∀ j < 6, (shl8 s[0] (2 * (i.val + 1)) &&& 0xC0).getLsbD j = false) ∧
    shl8 (s[0] &&& 0xC0) (2 * (i.val + 1)) &&& 0xC0 = 0) ∧
  ∀ b : Lanes 3,
    (unpack4x6 b)[0] = shr8 (b[0] &&& 0xC0) 2 ||| shr8 (b[1] &&& 0xC0) 4 ||| shr8 (b[2] &&& 0xC0) 6 ∧
    (∀ i : Fin 3, shr8 (b[i] &&& 0xC0) (2 * (i.val + 1)) &&& ~~~shl8 0x03 (4 - 2 * i.val) = 0) ∧
    (unpack4x6 b)[0] = byteOfWires false false (b[0].getLsbD 7) (b[0].getLsbD 6) (b[1].getLsbD 7) (b[1].getLsbD 6)
      (b[2].getLsbD 7) (b[2].getLsbD 6)

/-- R45: sample0's contribution to Block `i` of the Octet codec, bit by bit, and its reassembly on unpack, term `i`
occupying bit `6−i` alone. -/
def Obligations.OctetSample0Assembly : Prop :=
  (∀ (s : Lanes 8) (i : Fin 7),
    (pack8x7 (#v[s[0], 0, 0, 0, 0, 0, 0, 0]))[i] = shl8 s[0] (i.val + 1) &&& 0x80 ∧
    (shl8 s[0] (i.val + 1) &&& 0x80).getLsbD 7 = s[0].getLsbD (6 - i.val) ∧
    (∀ j < 7, (shl8 s[0] (i.val + 1) &&& 0x80).getLsbD j = false) ∧
    shl8 (s[0] &&& 0x80) (i.val + 1) &&& 0x80 = 0) ∧
  ∀ b : Lanes 7,
    (unpack8x7 b)[0] = (List.finRange 7).foldl (fun acc i => acc ||| shr8 (b[i] &&& 0x80) (i.val + 1)) 0 ∧
    (∀ i : Fin 7, shr8 (b[i] &&& 0x80) (i.val + 1) &&& ~~~shl8 0x01 (6 - i.val) = 0) ∧
    (unpack8x7 b)[0] = byteOfWires false (b[0].getLsbD 7) (b[1].getLsbD 7) (b[2].getLsbD 7) (b[3].getLsbD 7)
      (b[4].getLsbD 7) (b[5].getLsbD 7) (b[6].getLsbD 7)

/-- `20_memory.md` R28, decision D5 (the spec's own naming convention): lane `i` stands at bits `[8i+7 : 8i]`, and the
lanes can be read back. -/
def Obligations.FlatViewOfLanes : Prop :=
  (∀ (lanes : List Byte) (i : Nat) (h : i < lanes.length),
    flatOfLanes lanes / 256 ^ i % 256 = lanes[i].toNat ∧
    ∀ j < 8, (flatOfLanes lanes).testBit (8 * i + j) = lanes[i].getLsbD j) ∧
  (∀ lanes : List Byte, flatOfLanes lanes < 256 ^ lanes.length ∧
    lanesOfFlat lanes.length (flatOfLanes lanes) = lanes) ∧
  (∀ n w, w < 256 ^ n → flatOfLanes (lanesOfFlat n w) = w) ∧
  flatOfLanes [0x9A, 0x7E, 0xD1] = 0xD17E9A

/-- `43_common_laws.md` §5: `InRange_k(v)` holds exactly when `v[7:k] = 0`, for the three widths, with the limits 15,
63 and 127; a Group is in range exactly when masking its Samples changes nothing. -/
def Obligations.InRangeMeansHighBitsZero : Prop :=
  (∀ v : Byte, (InRange 4 v ↔ v.toNat ≤ 15) ∧ (InRange 6 v ↔ v.toNat ≤ 63) ∧ (InRange 7 v ↔ v.toNat ≤ 127)) ∧
  (∀ (k : Nat) (v : Byte), k ≤ 8 → (InRange k v ↔ shr8 v k = 0)) ∧
  (∀ s : Lanes 2, GroupInRange 4 s ↔ s.map (· &&& pairMaskLo) = s) ∧
  (∀ s : Lanes 4, GroupInRange 6 s ↔ s.map (· &&& quadMaskLo) = s) ∧
  ∀ s : Lanes 8, GroupInRange 7 s ↔ s.map (· &&& octetMaskLo) = s

/-! ### Decoding and encoding (the written form of an evaluation is the model's choice, log 6) -/

/-- Every evaluation decodes back from its encoding, as lanes and in the flat view, and no other pair of index and
lanes decodes to it. -/
def Obligations.DecodeEncodeRoundTrip : Prop :=
  (∀ i : Instr, decode (encode i).1 (encode i).2 = .ok i ∧ decodeFlat (encodeFlat i).1 (encodeFlat i).2 = .ok i) ∧
  (∀ (index : Nat) (lanes : List Byte) (i : Instr), decode index lanes = .ok i → encode i = (index, lanes)) ∧
  ∀ (index flat : Nat) (i : Instr), decodeFlat index flat = .ok i → encodeFlat i = (index, flat)

/-- The decoder refuses exactly an index above 5 (decision D12) and a number of lanes that is not the operation's own
(20_memory.md §1), each by its name. -/
def Obligations.DecodeRefusesByName : Prop :=
  (∀ (index : Nat) (lanes : List Byte), 5 < index → decode index lanes = .error (.noSuchOperation index)) ∧
  ∀ (m : Module) (lanes : List Byte),
    (lanes.length ≠ m.inputLanes → decode m.index lanes = .error (.wrongLaneCount m.index lanes.length)) ∧
    (lanes.length = m.inputLanes → ∃ i, decode m.index lanes = .ok i ∧ i.module = m ∧ i.inputs = lanes)

/-- A word of the opcode table is the input of the unpack operation of its width (model's choice, log 7), and step
runs that operation on it as its next evaluation, in every state. -/
def Obligations.TableWordRunsUnpack : Prop :=
  (∀ w < 2 ^ 8, ∃ b : Lanes 1, flatOfLanes b.toList = w ∧ decodeTableWord 8 w = some (.unpack2x4 b) ∧
    ∀ st : State, step (st.withFetchWord 8 w) = exec (.unpack2x4 b) st) ∧
  (∀ w < 2 ^ 24, ∃ b : Lanes 3, flatOfLanes b.toList = w ∧ decodeTableWord 24 w = some (.unpack4x6 b) ∧
    ∀ st : State, step (st.withFetchWord 24 w) = exec (.unpack4x6 b) st) ∧
  ∀ w < 2 ^ 56, ∃ b : Lanes 7, flatOfLanes b.toList = w ∧ decodeTableWord 56 w = some (.unpack8x7 b) ∧
    ∀ st : State, step (st.withFetchWord 56 w) = exec (.unpack8x7 b) st

/-- Words of `95_test_vectors.md` §3 (columns index and flat in) decode to the evaluation of their line. -/
def Obligations.ListedWordsDecode : Prop :=
  decodeFlat 0 0xAE37 = .ok (.pack2x4 #v[0x37, 0xAE]) ∧
  decodeFlat 1 0xE7 = .ok (.unpack2x4 #v[0xE7]) ∧
  decodeFlat 2 0x113E5A27 = .ok (.pack4x6 #v[0x27, 0x5A, 0x3E, 0x11]) ∧
  decodeFlat 3 0xD17EDA = .ok (.unpack4x6 #v[0xDA, 0x7E, 0xD1]) ∧
  decodeFlat 4 0x214B434150544942 = .ok (.pack8x7 #v[0x42, 0x49, 0x54, 0x50, 0x41, 0x43, 0x4B, 0x21]) ∧
  decodeFlat 5 0x21CB43415054C9 = .ok (.unpack8x7 #v[0xC9, 0x54, 0x50, 0x41, 0x43, 0xCB, 0x21])

/-! ### The step: one evaluation of the listing's next line (decision D10, log 3 and log 4) -/

/-- When the next line's arguments have values and these decode to an evaluation, the step is that evaluation in the
state with the line taken off the listing. -/
def Obligations.StepRunsDecodedEvaluation : Prop :=
  ∀ (st : State) (line : Line) (rest : List Line) (lanes : List Byte) (i : Instr),
    st.pending = line :: rest → readOperands st.named line.operands = .ok lanes → decode line.index lanes = .ok i →
    step st = exec i { st with pending := rest }

/-- An argument is a literal or the value of an earlier name, read in lane order (30_encoding.md §5). -/
def Obligations.ArgumentsAreLiteralsOrNames : Prop :=
  ∀ named : List Byte,
    (∀ v : Byte, Operand.value named (.lit v) = .ok v) ∧
    (∀ (n : Nat) (h : n < named.length), Operand.value named (.name n) = .ok named[n]) ∧
    ∀ (ops : List Operand) (lanes : List Byte), readOperands named ops = .ok lanes ↔
      List.Forall₂ (fun a v => a.value named = .ok v) ops lanes

/-- With no line left, the run has ended (model's choice, log 4): every port goes on showing what it shows, the caller
holding the inputs (model's choice, log 9). -/
def Obligations.StepAfterTheLastLineChangesNothing : Prop :=
  ∀ st : State, st.pending = [] → step st = .next st

/-- A line whose index is above 5 is refused (decision D12, U12). -/
def Obligations.StepRefusesUnknownIndex : Prop :=
  ∀ (st : State) (line : Line) (rest : List Line), st.pending = line :: rest → 5 < line.index →
    line.operands.all (Operand.wellFormed st.named.length) = true →
    step st = .refused (.noSuchOperation line.index)

/-- A line with fewer or more lanes than its operation has is refused (20_memory.md §1: there is no such
operation). -/
def Obligations.StepRefusesWrongLaneCount : Prop :=
  ∀ (st : State) (line : Line) (rest : List Line) (m : Module), st.pending = line :: rest → line.index = m.index →
    line.operands.all (Operand.wellFormed st.named.length) = true → line.operands.length ≠ m.inputLanes →
    step st = .refused (.wrongLaneCount line.index line.operands.length)

/-- A line that uses a name no earlier line defines, its own result among them, is refused by the first such name
(70_reset_and_hazards.md §3, U11). -/
def Obligations.StepRefusesLoop : Prop :=
  ∀ (st : State) (line : Line) (rest : List Line) (before after : List Operand) (n : Nat),
    st.pending = line :: rest → line.operands = before ++ .name n :: after →
    before.all (Operand.wellFormed st.named.length) = true → st.named.length ≤ n →
    step st = .refused (.undefinedName n)

/-- A feed-forward chain: when a line takes the names the line before it defines, both steps complete and the second
evaluation is of exactly what the first put out (70_reset_and_hazards.md §3, "composable into pipelines"). Naming is the
model's choice (log 3). -/
def Obligations.FeedForwardChainComposes : Prop :=
  ∀ (i : Instr) (m : Module) (rest : List Line) (st : State), m.inputLanes = i.module.outputLanes →
    st.pending = Line.ofInstr i ::
      { index := m.index, operands := (List.range' st.named.length m.inputLanes).map Operand.name } :: rest →
    ∃ (t u : State) (j : Instr), step st = .next t ∧ t.inputs i.module = i.inputs ∧ j.module = m ∧
      j.inputs = t.outputs i.module ∧ step t = exec j { t with pending := rest } ∧ step t = .next u ∧
      u.inputs m = t.outputs i.module ∧ u.pending = rest

/-! ### Reset, and what every step keeps -/

/-- After reset nothing is named and no line waits (model's choice, log 5), every input lane is zero (model's choice,
log 1), and the outputs are what the modules compute from zeros: all zeros (70_reset_and_hazards.md §1). -/
def Obligations.ResetShowsZeros : Prop :=
  State.reset.OutputsFollow ∧ State.reset.ListingOk ∧ State.reset.named = [] ∧ State.reset.pending = [] ∧
  ∀ m : Module, State.reset.inputs m = List.replicate m.inputLanes 0 ∧
    State.reset.outputs m = List.replicate m.outputLanes 0

/-- "The value at each output port at any moment is a function of the values at that module's input ports at that
moment": in every state in which the outputs follow the inputs, a step leaves a state in which they do. -/
def Obligations.StepKeepsOutputsFollow : Prop :=
  ∀ st t : State, st.OutputsFollow → step st = .next t → t.OutputsFollow

/-- A feed-forward listing is never refused: from every state whose listing is well formed the step answers a next
state, whose listing is well formed again. -/
def Obligations.StepOfFeedForwardListingCompletes : Prop :=
  ∀ st : State, st.ListingOk → ∃ t, step st = .next t ∧ t.ListingOk

/-- "its run ends when every line has been evaluated" (decision D10): a feed-forward listing of `k` lines has ended
after `k` steps, with the old names kept and one new name for each output lane of each line. -/
def Obligations.FeedForwardListingRunsToItsEnd : Prop :=
  ∀ st : State, st.ListingOk → ∃ t, core.run st.pending.length st = .next t ∧ t.pending = [] ∧
    st.named <+: t.named ∧ t.named.length = st.named.length + (st.pending.map Line.definedNames).sum
end

