-- ==== Sys2Proof/Laws/Ops.lean ====
section
/-! SUPPORT. The primitives bit by bit, and the two ways a lane equation is proved: all eight bits, or every lane. -/

namespace Sys2Proof.Machine

theorem shl8_getLsbD (v : Byte) (n j : Nat) :
    (shl8 v n).getLsbD j = (decide (j < 8) && !decide (j < n) && v.getLsbD (j - n)) := by
  simp [shl8]

theorem shr8_getLsbD (v : Byte) (n j : Nat) : (shr8 v n).getLsbD j = v.getLsbD (n + j) := by
  simp [shr8]

/-- The two masks of a codec are complements (R46), so a value is the OR of its two masked parts. -/
theorem quad_masks_cover (v : Byte) : (v &&& quadMaskHi) ||| (v &&& quadMaskLo) = v := by
  revert v; decide

theorem octet_masks_cover (v : Byte) : (v &&& octetMaskHi) ||| (v &&& octetMaskLo) = v := by
  revert v; decide

/-- A lane joined from wires shows each wire at its own bit. -/
theorem byteOfWires_getLsbD (w7 w6 w5 w4 w3 w2 w1 w0 : Bool) (j : Nat) (h : j < 8) :
    (byteOfWires w7 w6 w5 w4 w3 w2 w1 w0).getLsbD j = #v[w0, w1, w2, w3, w4, w5, w6, w7][j] := by
  simp [byteOfWires, BitVec.getLsbD_eq_getElem h]

/-- Two lane values with the same eight bits are equal. -/
theorem byte_ext {x y : Byte} (h : ∀ j < 8, x.getLsbD j = y.getLsbD j) : x = y :=
  BitVec.eq_of_getLsbD_eq h

/-- Two ports with the same value on every lane are equal. -/
theorem lanes_ext {n : Nat} {x y : Lanes n} (h : ∀ i : Fin n, x[i] = y[i]) : x = y :=
  Vector.ext fun i hi => h ⟨i, hi⟩

end Sys2Proof.Machine
end

