-- ==== Sys2Proof/Laws/Codecs.lean ====
section
/-! SUPPORT. The six functions lane by lane, so that no later proof unfolds a vector of lanes. -/

namespace Sys2Proof.Machine

@[simp] theorem pack2x4_lane0 (s : Lanes 2) : (pack2x4 s)[0] = shl8 s[1] 4 ||| (s[0] &&& 0x0F) := rfl
@[simp] theorem unpack2x4_lane0 (b : Lanes 1) : (unpack2x4 b)[0] = b[0] &&& 0x0F := rfl
@[simp] theorem unpack2x4_lane1 (b : Lanes 1) : (unpack2x4 b)[1] = shr8 b[0] 4 := rfl

theorem pack4x6_lane (s : Lanes 4) (i : Nat) (h : i < 3) :
    (pack4x6 s)[i] = s[i + 1] ||| (shl8 s[0] (quadShift i) &&& quadMaskHi) := by
  match i, h with
  | 0, _ => rfl
  | 1, _ => rfl
  | 2, _ => rfl

@[simp] theorem unpack4x6_lane0 (b : Lanes 3) : (unpack4x6 b)[0] =
    shr8 (b[0] &&& 0xC0) 2 ||| shr8 (b[1] &&& 0xC0) 4 ||| shr8 (b[2] &&& 0xC0) 6 := rfl

theorem unpack4x6_lane_succ (b : Lanes 3) (i : Nat) (h : i < 3) : (unpack4x6 b)[i + 1] = b[i] &&& quadMaskLo := by
  match i, h with
  | 0, _ => rfl
  | 1, _ => rfl
  | 2, _ => rfl

theorem pack8x7_lane (s : Lanes 8) (i : Nat) (h : i < 7) :
    (pack8x7 s)[i] = s[i + 1] ||| (shl8 s[0] (octetShift i) &&& octetMaskHi) := by
  match i, h with
  | 0, _ => rfl
  | 1, _ => rfl
  | 2, _ => rfl
  | 3, _ => rfl
  | 4, _ => rfl
  | 5, _ => rfl
  | 6, _ => rfl

@[simp] theorem unpack8x7_lane0 (b : Lanes 7) : (unpack8x7 b)[0] =
    (shr8 (b[0] &&& 0x80) 1 ||| shr8 (b[1] &&& 0x80) 2 ||| shr8 (b[2] &&& 0x80) 3 ||| shr8 (b[3] &&& 0x80) 4
      ||| shr8 (b[4] &&& 0x80) 5 ||| shr8 (b[5] &&& 0x80) 6 ||| shr8 (b[6] &&& 0x80) 7) := rfl

theorem unpack8x7_lane_succ (b : Lanes 7) (i : Nat) (h : i < 7) : (unpack8x7 b)[i + 1] = b[i] &&& octetMaskLo := by
  match i, h with
  | 0, _ => rfl
  | 1, _ => rfl
  | 2, _ => rfl
  | 3, _ => rfl
  | 4, _ => rfl
  | 5, _ => rfl
  | 6, _ => rfl

/-- Lane by lane OR of two ports. -/
def orLanes {n : Nat} (x y : Lanes n) : Lanes n := Vector.zipWith (· ||| ·) x y

@[simp] theorem orLanes_lane {n : Nat} (x y : Lanes n) (i : Nat) (h : i < n) : (orLanes x y)[i] = x[i] ||| y[i] := by
  simp [orLanes]

theorem shl8_or (x y : Byte) (n : Nat) : shl8 (x ||| y) n = shl8 x n ||| shl8 y n := BitVec.shiftLeft_or_distrib ..

theorem shr8_or (x y : Byte) (n : Nat) : shr8 (x ||| y) n = shr8 x n ||| shr8 y n := BitVec.ushiftRight_or_distrib ..

theorem or_and_mask (x y c : Byte) : (x ||| y) &&& c = x &&& c ||| y &&& c := BitVec.and_or_distrib_right ..

/-- Shifts by constants, ANDs with constants and ORs all distribute over OR, so each of the six functions does: an
output bit is the OR of the input bits it depends on. -/
theorem pack2x4_or (x y : Lanes 2) : pack2x4 (orLanes x y) = orLanes (pack2x4 x) (pack2x4 y) := by
  apply Vector.ext
  intro i hi
  match i, hi with
  | 0, _ => simp only [pack2x4_lane0, orLanes_lane, shl8_or, or_and_mask]; ac_rfl

theorem unpack2x4_or (x y : Lanes 1) : unpack2x4 (orLanes x y) = orLanes (unpack2x4 x) (unpack2x4 y) := by
  apply Vector.ext
  intro i hi
  match i, hi with
  | 0, _ => simp only [unpack2x4_lane0, orLanes_lane, or_and_mask]
  | 1, _ => simp only [unpack2x4_lane1, orLanes_lane, shr8_or]

theorem pack4x6_or (x y : Lanes 4) : pack4x6 (orLanes x y) = orLanes (pack4x6 x) (pack4x6 y) := by
  apply Vector.ext
  intro i hi
  simp only [pack4x6_lane _ i hi, orLanes_lane, shl8_or, or_and_mask]
  ac_rfl

theorem unpack4x6_or (x y : Lanes 3) : unpack4x6 (orLanes x y) = orLanes (unpack4x6 x) (unpack4x6 y) := by
  apply Vector.ext
  intro i hi
  match i, hi with
  | 0, _ => simp only [unpack4x6_lane0, orLanes_lane, shr8_or, or_and_mask]; ac_rfl
  | i + 1, hi => simp only [unpack4x6_lane_succ _ i (by omega), orLanes_lane, or_and_mask]

theorem pack8x7_or (x y : Lanes 8) : pack8x7 (orLanes x y) = orLanes (pack8x7 x) (pack8x7 y) := by
  apply Vector.ext
  intro i hi
  simp only [pack8x7_lane _ i hi, orLanes_lane, shl8_or, or_and_mask]
  ac_rfl

theorem unpack8x7_or (x y : Lanes 7) : unpack8x7 (orLanes x y) = orLanes (unpack8x7 x) (unpack8x7 y) := by
  apply Vector.ext
  intro i hi
  match i, hi with
  | 0, _ => simp only [unpack8x7_lane0, orLanes_lane, shr8_or, or_and_mask]; ac_rfl
  | i + 1, hi => simp only [unpack8x7_lane_succ _ i (by omega), orLanes_lane, or_and_mask]

end Sys2Proof.Machine
end

