-- ==== Sys2Proof/Laws/Decode.lean ====
section
/-! SUPPORT. The decoder's parts: lanes read back, indexes, the flat view. -/

namespace Sys2Proof

open Machine

@[simp] theorem lanesOf?_toList {n : Nat} (v : Lanes n) : lanesOf? n v.toList = some v := by
  simp [lanesOf?, ← Vector.toArray_toList]

/-- `lanesOf?` answers exactly on a list of `n` lanes, and then with the vector of that list. -/
theorem lanesOf?_eq_some_iff {n : Nat} {l : List Byte} {v : Lanes n} : lanesOf? n l = some v ↔ l = v.toList := by
  refine ⟨fun h => ?_, fun h => h ▸ lanesOf?_toList v⟩
  unfold lanesOf? at h
  split at h
  · cases h; rfl
  · cases h

theorem lanesOf?_eq_none_iff {n : Nat} {l : List Byte} : lanesOf? n l = none ↔ l.length ≠ n := by
  simp [lanesOf?]

@[simp] theorem Machine.Module.ofIndex?_index (m : Module) : Module.ofIndex? m.index = some m := by
  cases m <;> rfl

/-- The indexes in use are those of the six modules. -/
theorem Machine.Module.ofIndex?_eq_some_iff {index : Nat} {m : Module} :
    Module.ofIndex? index = some m ↔ index = m.index := by
  refine ⟨fun h => ?_, fun h => h ▸ ofIndex?_index m⟩
  unfold Module.ofIndex? at h
  split at h <;> cases h <;> rfl

theorem Machine.Module.ofIndex?_eq_none_iff {index : Nat} : Module.ofIndex? index = none ↔ 5 < index := by
  refine ⟨fun h => ?_, fun h => ?_⟩
  · unfold Module.ofIndex? at h
    split at h <;> try cases h
    rename_i h0 h1 h2 h3 h4 h5
    simp only [imp_false] at *
    omega
  · unfold Module.ofIndex?
    split <;> first | omega | rfl

/-- `decodeLanes` answers exactly with the evaluations of its module, on their own inputs. -/
theorem decodeLanes_eq_some_iff {m : Module} {lanes : List Byte} {i : Instr} :
    decodeLanes m lanes = some i ↔ i.module = m ∧ i.inputs = lanes := by
  cases m <;> cases i <;> simp [decodeLanes, Instr.module, Instr.inputs, lanesOf?_eq_some_iff, @eq_comm _ _ lanes]

theorem decodeLanes_eq_none_iff {m : Module} {lanes : List Byte} :
    decodeLanes m lanes = none ↔ lanes.length ≠ m.inputLanes := by
  cases m <;> simp [decodeLanes, lanesOf?_eq_none_iff] <;> rfl

/-- The whole of `decode`, when it answers. -/
theorem decode_eq_ok_iff {index : Nat} {lanes : List Byte} {i : Instr} :
    decode index lanes = .ok i ↔ index = i.module.index ∧ lanes = i.inputs := by
  refine ⟨fun h => ?_, ?_⟩
  · unfold decode at h
    split at h
    · cases h
    · next m hm =>
      split at h
      · cases h
      · next i' hi =>
        cases h
        obtain ⟨rfl, rfl⟩ := decodeLanes_eq_some_iff.1 hi
        exact ⟨Machine.Module.ofIndex?_eq_some_iff.1 hm, rfl⟩
  · rintro ⟨rfl, rfl⟩
    simp [decode, decodeLanes_eq_some_iff.2 ⟨rfl, rfl⟩]

/-- An evaluation presents as many lanes as its module has input lanes. -/
@[simp] theorem Instr.inputs_length (i : Instr) : i.inputs.length = i.module.inputLanes := by
  cases i <;> simp [Instr.inputs, Instr.module] <;> rfl

/-- The flat value of `n` lanes has no bit above lane `n − 1`. -/
theorem flatOfLanes_lt : ∀ lanes : List Byte, flatOfLanes lanes < 256 ^ lanes.length
  | [] => by simp [flatOfLanes]
  | b :: rest => by
    have h := flatOfLanes_lt rest
    have hb := b.isLt
    simp only [flatOfLanes, List.length_cons, pow_succ]
    omega

@[simp] theorem lanesOfFlat_length : ∀ n w, (lanesOfFlat n w).length = n
  | 0, _ => rfl
  | n + 1, w => by simp [lanesOfFlat, lanesOfFlat_length n]

@[simp] theorem lanesOfFlat_flatOfLanes : ∀ lanes : List Byte, lanesOfFlat lanes.length (flatOfLanes lanes) = lanes
  | [] => rfl
  | b :: rest => by
    have hb := b.isLt
    have hdiv : (b.toNat + 256 * flatOfLanes rest) / 256 = flatOfLanes rest := by omega
    have hmod : BitVec.ofNat 8 (b.toNat + 256 * flatOfLanes rest) = b := by
      apply BitVec.eq_of_toNat_eq; simp only [BitVec.toNat_ofNat]; omega
    simp only [List.length_cons, lanesOfFlat, flatOfLanes, hdiv, hmod, lanesOfFlat_flatOfLanes rest]

theorem flatOfLanes_lanesOfFlat : ∀ n w, w < 256 ^ n → flatOfLanes (lanesOfFlat n w) = w
  | 0, w, h => by simp at h; simp [lanesOfFlat, flatOfLanes, h]
  | n + 1, w, h => by
    have hq : w / 256 < 256 ^ n := by rw [pow_succ] at h; omega
    simp only [lanesOfFlat, flatOfLanes, flatOfLanes_lanesOfFlat n _ hq, BitVec.toNat_ofNat]
    omega

end Sys2Proof
end

