-- ==== Sys2Proof/Laws/State.lean ====
section
/-! SUPPORT. One lemma per field for each update of `State` and `Ports`, and the ports seen by module. -/

namespace Sys2Proof.Machine

@[simp] theorem Ports.present_inp {n m : Nat} (f : Lanes n → Lanes m) (x : Lanes n) : (Ports.present f x).inp = x := rfl
@[simp] theorem Ports.present_out {n m : Nat} (f : Lanes n → Lanes m) (x : Lanes n) :
    (Ports.present f x).out = f x := rfl
theorem Ports.present_eq {n m : Nat} (f : Lanes n → Lanes m) (x : Lanes n) : Ports.present f x = ⟨x, f x⟩ := rfl

variable {m : Nat} (st : State) (out : Lanes m)

@[simp] theorem State.nameLanes_pairPack : (st.nameLanes out).pairPack = st.pairPack := rfl
@[simp] theorem State.nameLanes_pairUnpack : (st.nameLanes out).pairUnpack = st.pairUnpack := rfl
@[simp] theorem State.nameLanes_quadPack : (st.nameLanes out).quadPack = st.quadPack := rfl
@[simp] theorem State.nameLanes_quadUnpack : (st.nameLanes out).quadUnpack = st.quadUnpack := rfl
@[simp] theorem State.nameLanes_octetPack : (st.nameLanes out).octetPack = st.octetPack := rfl
@[simp] theorem State.nameLanes_octetUnpack : (st.nameLanes out).octetUnpack = st.octetUnpack := rfl
@[simp] theorem State.nameLanes_named : (st.nameLanes out).named = st.named ++ out.toList := rfl
@[simp] theorem State.nameLanes_pending : (st.nameLanes out).pending = st.pending := rfl

@[simp] theorem State.inputs_pairPack : st.inputs .pairPack = st.pairPack.inp.toList := rfl
@[simp] theorem State.inputs_pairUnpack : st.inputs .pairUnpack = st.pairUnpack.inp.toList := rfl
@[simp] theorem State.inputs_quadPack : st.inputs .quadPack = st.quadPack.inp.toList := rfl
@[simp] theorem State.inputs_quadUnpack : st.inputs .quadUnpack = st.quadUnpack.inp.toList := rfl
@[simp] theorem State.inputs_octetPack : st.inputs .octetPack = st.octetPack.inp.toList := rfl
@[simp] theorem State.inputs_octetUnpack : st.inputs .octetUnpack = st.octetUnpack.inp.toList := rfl

@[simp] theorem State.outputs_pairPack : st.outputs .pairPack = st.pairPack.out.toList := rfl
@[simp] theorem State.outputs_pairUnpack : st.outputs .pairUnpack = st.pairUnpack.out.toList := rfl
@[simp] theorem State.outputs_quadPack : st.outputs .quadPack = st.quadPack.out.toList := rfl
@[simp] theorem State.outputs_quadUnpack : st.outputs .quadUnpack = st.quadUnpack.out.toList := rfl
@[simp] theorem State.outputs_octetPack : st.outputs .octetPack = st.octetPack.out.toList := rfl
@[simp] theorem State.outputs_octetUnpack : st.outputs .octetUnpack = st.octetUnpack.out.toList := rfl

end Sys2Proof.Machine
end

