-- ==== Sys2Proof/Laws/Exec.lean ====
section
/-! SUPPORT. What each evaluation answers, as an equation; the inversion of `exec` is these six. -/

namespace Sys2Proof.Machine

variable (st : State)

@[simp] theorem exec_pack2x4 (s : Lanes 2) : exec (.pack2x4 s) st =
    .next ({ st with pairPack := Ports.present pack2x4 s }.nameLanes (pack2x4 s)) := rfl
@[simp] theorem exec_unpack2x4 (b : Lanes 1) : exec (.unpack2x4 b) st =
    .next ({ st with pairUnpack := Ports.present unpack2x4 b }.nameLanes (unpack2x4 b)) := rfl
@[simp] theorem exec_pack4x6 (s : Lanes 4) : exec (.pack4x6 s) st =
    .next ({ st with quadPack := Ports.present pack4x6 s }.nameLanes (pack4x6 s)) := rfl
@[simp] theorem exec_unpack4x6 (b : Lanes 3) : exec (.unpack4x6 b) st =
    .next ({ st with quadUnpack := Ports.present unpack4x6 b }.nameLanes (unpack4x6 b)) := rfl
@[simp] theorem exec_pack8x7 (s : Lanes 8) : exec (.pack8x7 s) st =
    .next ({ st with octetPack := Ports.present pack8x7 s }.nameLanes (pack8x7 s)) := rfl
@[simp] theorem exec_unpack8x7 (b : Lanes 7) : exec (.unpack8x7 b) st =
    .next ({ st with octetUnpack := Ports.present unpack8x7 b }.nameLanes (unpack8x7 b)) := rfl

end Sys2Proof.Machine
end

