-- ==== Sys2Proof/Laws/PerInstr.lean ====
section
/-! SUPPORT. Statements made per operation, one lemma per constructor of `Instr`. -/

namespace Sys2Proof.Laws.EncodeShape

/-- The encoding of an evaluation is an index of the operation table and one lane for each input lane of its module
(R23, R47). -/
def Statement (i : Instr) : Prop :=
  Machine.Module.ofIndex? (encode i).1 = some i.module ∧ (encode i).2.length = i.module.inputLanes

theorem statement_of (i : Instr) : Statement i := ⟨by simp [encode], by simp [encode]⟩

theorem pack2x4 (s : Lanes 2) : Statement (.pack2x4 s) := statement_of _
theorem unpack2x4 (b : Lanes 1) : Statement (.unpack2x4 b) := statement_of _
theorem pack4x6 (s : Lanes 4) : Statement (.pack4x6 s) := statement_of _
theorem unpack4x6 (b : Lanes 3) : Statement (.unpack4x6 b) := statement_of _
theorem pack8x7 (s : Lanes 8) : Statement (.pack8x7 s) := statement_of _
theorem unpack8x7 (b : Lanes 7) : Statement (.unpack8x7 b) := statement_of _

end Sys2Proof.Laws.EncodeShape
end

