-- ==== Sys2Proof/Laws/Step.lean ====
section
/-! SUPPORT. What a step can do, once, and when a line has its evaluation. -/

namespace Sys2Proof.Machine

/-- Everything a step that answers a next state can have done: nothing, with no line left, or the evaluation of the
next line. -/
theorem step_cases {st t : State} (h : step st = .next t) :
    (st.pending = [] ∧ t = st) ∨
      ∃ line rest i, st.pending = line :: rest ∧ line.instr st.named = .ok i ∧
        exec i { st with pending := rest } = .next t := by
  unfold step at h
  split at h
  · next hp => cases h; exact .inl ⟨hp, rfl⟩
  · next line rest hp =>
    split at h
    · cases h
    · next i hi => exact .inr ⟨line, rest, i, hp, hi, h⟩

/-- A step with a line to evaluate, once the line's evaluation is known. -/
theorem step_of_instr {st : State} {line : Line} {rest : List Line} {i : Instr} (hp : st.pending = line :: rest)
    (hi : line.instr st.named = .ok i) : step st = exec i { st with pending := rest } := by
  simp [step, hp, hi]

/-- Everything a line that has an evaluation says: its arguments have values, which its module takes. -/
theorem Line.instr_eq_ok_iff {named : List Byte} {l : Line} {i : Instr} :
    l.instr named = .ok i ↔ readOperands named l.operands = .ok i.inputs ∧ l.index = i.module.index := by
  refine ⟨fun h => ?_, ?_⟩
  · unfold Line.instr at h
    split at h
    · cases h
    · next lanes hr =>
      split at h
      · cases h
      · next i' hd =>
        cases h
        obtain ⟨hidx, rfl⟩ := decode_eq_ok_iff.1 hd
        exact ⟨hr, hidx⟩
  · rintro ⟨hr, hidx⟩
    simp [Line.instr, hr, decode_eq_ok_iff.2 ⟨hidx, rfl⟩]

/-- An argument that is well formed over the named values has a value. -/
theorem Operand.value_of_wellFormed {named : List Byte} {a : Operand} (h : a.wellFormed named.length = true) :
    ∃ v, a.value named = .ok v := by
  cases a with
  | lit v => exact ⟨v, rfl⟩
  | name n =>
    have hn : n < named.length := by simpa [Operand.wellFormed] using h
    exact ⟨named[n], by simp [Operand.value, List.getElem?_eq_getElem hn]⟩

/-- Arguments that are well formed over the named values are all read, one lane each. -/
theorem readOperands_of_wellFormed {named : List Byte} : ∀ {ops : List Operand},
    ops.all (Operand.wellFormed named.length) = true →
      ∃ lanes, readOperands named ops = .ok lanes ∧ lanes.length = ops.length
  | [], _ => ⟨[], rfl, rfl⟩
  | a :: rest, h => by
    rw [List.all_cons, Bool.and_eq_true] at h
    obtain ⟨v, hv⟩ := Operand.value_of_wellFormed h.1
    obtain ⟨vs, hvs, hlen⟩ := readOperands_of_wellFormed h.2
    exact ⟨v :: vs, by simp [readOperands, hv, hvs], by simp [hlen]⟩

/-- Literal arguments are read as they are written. -/
@[simp] theorem readOperands_lits (named : List Byte) : ∀ lanes : List Byte,
    readOperands named (lanes.map Operand.lit) = .ok lanes
  | [] => rfl
  | v :: rest => by simp [readOperands, Operand.value, readOperands_lits named rest]

/-- The literal line of an evaluation stands for it. -/
@[simp] theorem Line.instr_ofInstr (named : List Byte) (i : Instr) : (Line.ofInstr i).instr named = .ok i :=
  Line.instr_eq_ok_iff.2 ⟨by simp [Line.ofInstr, encode], rfl⟩

end Sys2Proof.Machine
end

