-- ==== Sys2Proof/Tests/Slice0.lean ====
section
/-! SUPPORT. Tests. Expected values are those of `95_test_vectors.md` (V: the source's vectors; 2.1 to 2.4: the spec's
derived and negative vectors; P: its listings), or are written out by hand from the rule named. -/

namespace Sys2Proof.Tests

open Sys2Proof.Machine

/-- The next state of an outcome. -/
def next? : Host.Outcome State Fault Refusal → Option State
  | .next s => some s
  | _ => none

/-- The refusal of an outcome. -/
def refusal? : Host.Outcome State Fault Refusal → Option Refusal
  | .refused r => some r
  | _ => none

/-- The state after reset with a listing loaded. -/
def loaded (lines : List Line) : State := { State.reset with pending := lines }

/-- What a module shows after one step on one line of literals. -/
def shows (m : Module) (lanes : List Byte) : Option (List Byte) :=
  (next? (step (loaded [{ index := m.index, operands := lanes.map Operand.lit }]))).map fun t => t.outputs m

/-! ### One step of each operation -/

/-- V1. -/
theorem test_pack2x4_source : shows .pairPack [0x07, 0x0E] = some [0xE7] := by decide
/-- 2.4: the 8-bit shift drops the high nibble of `s[1]`, and `s[0]` is masked. -/
theorem test_pack2x4_out_of_range : shows .pairPack [0x1F, 0xF1] = some [0x1F] := by decide
/-- V1. -/
theorem test_unpack2x4_source : shows .pairUnpack [0xE7] = some [0x07, 0x0E] := by decide
/-- 2.4: logical shift, no sign extension. -/
theorem test_unpack2x4_no_sign : shows .pairUnpack [0x80] = some [0x00, 0x08] := by decide
/-- V2: the direction of sample0's pieces. -/
theorem test_pack4x6_source : shows .quadPack [0x27, 0x1A, 0x3E, 0x11] = some [0x9A, 0x7E, 0xD1] := by decide
/-- 2.4: OR of overlapping bits, neither sum nor exclusive-OR nor mask. -/
theorem test_pack4x6_overlap : shows .quadPack [0x30, 0xC0, 0x00, 0x00] = some [0xC0, 0x00, 0x00] := by decide
/-- V2. -/
theorem test_unpack4x6_source : shows .quadUnpack [0x9A, 0x7E, 0xD1] = some [0x27, 0x1A, 0x3E, 0x11] := by decide
/-- 2.4: mask before shift. -/
theorem test_unpack4x6_mask_first : shows .quadUnpack [0xFF, 0x00, 0x00] = some [0x30, 0x3F, 0x00, 0x00] := by decide
/-- V3: the direction of sample0's bits. -/
theorem test_pack8x7_source : shows .octetPack [0x12, 0x25, 0x36, 0x49, 0x5A, 0x6C, 0x7E, 0x1F] =
    some [0x25, 0x36, 0xC9, 0x5A, 0x6C, 0xFE, 0x1F] := by decide
/-- 2.3: `s[0][7]` ignored, `s[1][7]` not masked. -/
theorem test_pack8x7_overlap : shows .octetPack [0x92, 0xA5, 0x36, 0x49, 0x5A, 0x6C, 0x7E, 0x1F] =
    some [0xA5, 0x36, 0xC9, 0x5A, 0x6C, 0xFE, 0x1F] := by decide
/-- V3. -/
theorem test_unpack8x7_source : shows .octetUnpack [0x25, 0x36, 0xC9, 0x5A, 0x6C, 0xFE, 0x1F] =
    some [0x12, 0x25, 0x36, 0x49, 0x5A, 0x6C, 0x7E, 0x1F] := by decide
/-- 2.3. -/
theorem test_unpack8x7_mixed : shows .octetUnpack [0x01, 0x23, 0x45, 0x67, 0x89, 0xAB, 0xCD] =
    some [0x07, 0x01, 0x23, 0x45, 0x67, 0x09, 0x2B, 0x4D] := by decide

/-- P4 line 3: a line takes the names of earlier lines. -/
theorem test_step_reads_names :
    (next? (step { State.reset with
      named := [0x07, 0x0E, 0x0A, 0x05]
      pending := [{ index := 2, operands := [.name 0, .name 1, .name 2, .name 3] }] })).map State.named =
    some [0x07, 0x0E, 0x0A, 0x05, 0x0E, 0x4A, 0xC5] := by decide

/-! ### Decoding: each operation's input written out from R28 and R47, and the table's words -/

/-- P1 line 1. -/
theorem test_decode_pack2x4 : decodeFlat 0 0xAE37 = .ok (.pack2x4 #v[0x37, 0xAE]) := by decide
/-- P1 line 2. -/
theorem test_decode_unpack2x4 : decodeFlat 1 0xE7 = .ok (.unpack2x4 #v[0xE7]) := by decide
/-- P2 line 3. -/
theorem test_decode_pack4x6 : decodeFlat 2 0x113E5A27 = .ok (.pack4x6 #v[0x27, 0x5A, 0x3E, 0x11]) := by decide
/-- P2 line 4. -/
theorem test_decode_unpack4x6 : decodeFlat 3 0xD17EDA = .ok (.unpack4x6 #v[0xDA, 0x7E, 0xD1]) := by decide
/-- P3 line 1. -/
theorem test_decode_pack8x7 : decodeFlat 4 0x214B434150544942 =
    .ok (.pack8x7 #v[0x42, 0x49, 0x54, 0x50, 0x41, 0x43, 0x4B, 0x21]) := by decide
/-- P3 line 2. -/
theorem test_decode_unpack8x7 : decodeFlat 5 0x21CB43415054C9 =
    .ok (.unpack8x7 #v[0xC9, 0x54, 0x50, 0x41, 0x43, 0xCB, 0x21]) := by decide
/-- D12: an index above 5. -/
theorem test_decode_refuses_index : decode 6 [] = .error (.noSuchOperation 6) := by decide
/-- R30: a lane short, a lane over. -/
theorem test_decode_refuses_lanes : decode 2 [1, 2, 3] = .error (.wrongLaneCount 2 3) ∧
    decode 1 [1, 2] = .error (.wrongLaneCount 1 2) := by decide
/-- R39: bit 8 of an 8-bit format. -/
theorem test_decode_refuses_wide : decodeFlat 1 0x100 = .error (.wrongLaneCount 1 2) := by decide
/-- Log 7: the rows' patterns `aaddddddaaccccccaabbbbbb` and `bbbbaaaa`, filled with V1 and V2. -/
theorem test_table_words : decodeTableWord 8 0b11100111 = some (.unpack2x4 #v[0xE7]) ∧
    decodeTableWord 24 0b110100010111111010011010 = some (.unpack4x6 #v[0x9A, 0x7E, 0xD1]) ∧
    decodeTableWord 16 0 = none := by decide
/-- Log 7: the octet row's pattern, filled with V3 (flat `0x1FFE6C5AC93625`). -/
theorem test_table_word_octet : decodeTableWord 56 0x1FFE6C5AC93625 =
    some (.unpack8x7 #v[0x25, 0x36, 0xC9, 0x5A, 0x6C, 0xFE, 0x1F]) := by decide
/-- Log 5: a placed word is evaluated by the very next step. -/
theorem test_withFetchWord : (next? (step (State.reset.withFetchWord 24 0xD17E9A))).map
    (fun t => (t.outputs .quadUnpack, t.pending)) = some ([0x27, 0x1A, 0x3E, 0x11], []) := by decide

/-! ### What is refused -/

/-- R51: a name no earlier line defines. -/
theorem test_wf_operand : Operand.wellFormed 2 (.name 2) = false ∧ Operand.wellFormed 3 (.name 2) = true := by decide
/-- D12: an index above 5. -/
theorem test_wf_index : Line.wellFormed 0 { index := 6, operands := [] } = false := by decide
/-- R30: three lanes for a Group of four. -/
theorem test_wf_lanes : Line.wellFormed 0 { index := 2, operands := [.lit 1, .lit 2, .lit 3] } = false := by decide
/-- R109: a line that takes its own result. -/
theorem test_wf_loop : listingWellFormed 0 [{ index := 1, operands := [.name 0] }] = false := by decide
/-- R51: the second line of P1 before its first. -/
theorem test_wf_listing :
    listingWellFormed 0 [{ index := 1, operands := [.name 0] }, { index := 0, operands := [.lit 1, .lit 2] }] = false ∧
    listingWellFormed 0 [{ index := 0, operands := [.lit 1, .lit 2] }, { index := 1, operands := [.name 0] }] = true := by
  decide
/-- R109: the loop is refused by the name of what is not defined. -/
theorem test_step_refuses_loop :
    refusal? (step (loaded [{ index := 1, operands := [.name 0] }])) = some (.undefinedName 0) := by decide

/-- R2: N × k = 8 × M in every row. -/
theorem test_codec_sizes : [Config.pair, Config.quad, Config.octet].all
    (fun c => c.samples * c.valueBits == 8 * c.blocks) = true := by decide
/-- R65 by hand on V2: the gate-level form gives the source's Blocks. -/
theorem test_gate_quad : gatePack4x6 #v[0x27, 0x1A, 0x3E, 0x11] = #v[0x9A, 0x7E, 0xD1] := by decide

/-! ### Witnesses: states and operands that meet the hypotheses of the statements -/

/-- `PairRoundTrip`: both limits. -/
theorem witness_pair_in_range : GroupInRange 4 (#v[0x0F, 0x00] : Lanes 2) := by decide
/-- `QuadRoundTrip`, `Pack4x6Result`, `QuadLayout`: both limits. -/
theorem witness_quad_in_range : GroupInRange 6 (#v[0x3F, 0x00, 0x3F, 0x1A] : Lanes 4) := by decide
/-- `OctetRoundTrip`, `Pack8x7Result`, `OctetLayout`: both limits. -/
theorem witness_octet_in_range : GroupInRange 7 (#v[0x7F, 0x00, 0x7F, 1, 2, 3, 4, 5] : Lanes 8) := by decide
/-- `QuadSample0Truncated`: `s[0]` out of range, the others in. -/
theorem witness_quad_sample0 : ∀ i : Fin 3, InRange 6 (#v[0xE7, 0x1A, 0x3E, 0x11] : Lanes 4)[i.val + 1] := by decide
/-- `OctetSample0Truncated`: `s[0]` out of range, the others in. -/
theorem witness_octet_sample0 :
    ∀ i : Fin 7, InRange 7 (#v[0x92, 0x25, 0x36, 0x49, 0x5A, 0x6C, 0x7E, 0x1F] : Lanes 8)[i.val + 1] := by decide
/-- `EvaluationLeavesOtherModulesAlone`, `SameInputSameOutput`: evaluations that answer a next state, another in
between. -/
theorem witness_evaluations : ((next? (exec (.pack2x4 #v[7, 14]) State.reset)).bind fun t =>
    (next? (exec (.unpack4x6 #v[1, 2, 3]) t)).bind fun u => next? (exec (.pack2x4 #v[7, 14]) u)).isSome = true := by decide
/-- `EvaluationsOfTwoModulesCommute`: two modules. -/
theorem witness_two_modules : (Instr.pack2x4 #v[7, 14]).module ≠ (Instr.unpack2x4 #v[1]).module := by decide
/-- `LeftShiftKeptToEightBits`, `RightShiftIsLogical`: the largest distance, each end of the bits. -/
theorem witness_shift_distance : (7 : Nat) ≤ 7 ∧ (7 : Nat) ≤ 7 ∧ (0 : Nat) ≤ 7 - 7 ∧ (8 : Nat) ≤ 16 := by decide
/-- `PairTruncatesEachSample`, the six results and the layouts: the bounds on a bit number, at both ends. -/
theorem witness_bit_numbers : (3 : Nat) < 4 ∧ (4 : Nat) ≤ 4 ∧ (5 : Nat) < 6 ∧ (6 : Nat) < 7 := by decide
/-- `InRangeMeansHighBitsZero`: each width. -/
theorem witness_widths : (4 : Nat) ≤ 8 ∧ (6 : Nat) ≤ 8 ∧ (7 : Nat) ≤ 8 ∧ InRange 7 0x7F ∧ ¬InRange 7 0x80 := by decide
/-- `LiveInputBits`: inputs that agree on the live bits and differ elsewhere, and a live bit. -/
theorem witness_live : (∀ i : Fin 2, (#v[0xA7, 0x1E] : Lanes 2)[i] &&& (#v[0x0F, 0x0F] : Lanes 2)[i] =
    (#v[0x07, 0xFE] : Lanes 2)[i] &&& (#v[0x0F, 0x0F] : Lanes 2)[i]) ∧
    (#v[0x0F, 0x0F] : Lanes 2)[(1 : Fin 2)].getLsbD 3 = true := by decide
/-- `FlatViewOfLanes`: the last lane, and the largest flat value of three lanes. -/
theorem witness_flat : 2 < ([0x9A, 0x7E, 0xD1] : List Byte).length ∧ 0xFFFFFF < 256 ^ 3 := by decide
/-- `DecodeEncodeRoundTrip`: decoded evaluations, in both views. -/
theorem witness_decodes : decode 1 [0xE7] = .ok (.unpack2x4 #v[0xE7]) ∧
    decodeFlat 2 0x113E1A27 = .ok (.pack4x6 #v[0x27, 0x1A, 0x3E, 0x11]) := by decide
/-- `DecodeRefusesByName`: the first index that labels nothing, a lane too many, and the right number. -/
theorem witness_refusals : 5 < 6 ∧ ([1, 2] : List Byte).length ≠ Module.pairUnpack.inputLanes ∧
    ([1] : List Byte).length = Module.pairUnpack.inputLanes := by decide
/-- `TableWordRunsUnpack`: the largest word of each width. -/
theorem witness_table_words : 0xFF < 2 ^ 8 ∧ 0xFFFFFF < 2 ^ 24 ∧ 0xFFFFFFFFFFFFFF < 2 ^ 56 := by decide
/-- `StepRunsDecodedEvaluation`: a line of a name and a literal. -/
theorem witness_step : readOperands [0x37] [.name 0, .lit 0xAE] = .ok [0x37, 0xAE] ∧
    decode 0 [0x37, 0xAE] = .ok (.pack2x4 #v[0x37, 0xAE]) ∧
    (loaded [{ index := 0, operands := [.name 0, .lit 0xAE] }]).pending = [{ index := 0, operands := [.name 0, .lit 0xAE] }] := by
  decide
/-- `ArgumentsAreLiteralsOrNames`: a defined name, arguments that read. -/
theorem witness_arguments : 0 < ([0x37] : List Byte).length ∧ readOperands [0x37] [.name 0, .lit 1] = .ok [0x37, 1] := by
  decide
/-- `StepAfterTheLastLineChangesNothing`. -/
theorem witness_no_line : State.reset.pending = [] := by decide
/-- `StepRefusesUnknownIndex`: index 6 with readable arguments. -/
theorem witness_unknown_index : 5 < 6 ∧ [Operand.lit 1].all (Operand.wellFormed 0) = true := by decide
/-- `StepRefusesWrongLaneCount`: no lane and one lane too many. -/
theorem witness_wrong_lanes : 0 = Module.pairPack.index ∧ ([] : List Operand).length ≠ Module.pairPack.inputLanes ∧
    [Operand.lit 1, .lit 2, .lit 3].all (Operand.wellFormed 0) = true ∧
    [Operand.lit 1, .lit 2, .lit 3].length ≠ Module.pairPack.inputLanes := by decide
/-- `StepRefusesLoop`: the line's own first result, after a readable argument. -/
theorem witness_loop : [Operand.lit 1, .name 1] = [Operand.lit 1] ++ .name 1 :: [] ∧
    [Operand.lit 1].all (Operand.wellFormed 1) = true ∧ ([0x37] : List Byte).length ≤ 1 := by decide
/-- `FeedForwardChainComposes`: the one name of a pack taken by the unpack of its codec. -/
theorem witness_chain : Module.pairUnpack.inputLanes = (Instr.pack2x4 #v[1, 2]).module.outputLanes ∧
    (loaded [Line.ofInstr (.pack2x4 #v[1, 2]), { index := 1, operands := [.name 0] }]).pending =
      Line.ofInstr (.pack2x4 #v[1, 2]) ::
        { index := Module.pairUnpack.index, operands := (List.range' 0 1).map Operand.name } :: [] := by decide
/-- `StepKeepsOutputsFollow`: a state whose outputs follow and that steps. -/
theorem witness_outputs_follow :
    (loaded [{ index := 1, operands := [.lit 0xE7] }]).OutputsFollow ∧
      (next? (step (loaded [{ index := 1, operands := [.lit 0xE7] }]))).isSome = true :=
  ⟨⟨by decide, by decide, by decide, by decide, by decide, by decide⟩, by decide⟩
/-- `StepOfFeedForwardListingCompletes`, `FeedForwardListingRunsToItsEnd`: a listing of two lines. -/
theorem witness_listing_ok :
    (loaded [{ index := 0, operands := [.lit 0x37, .lit 0xAE] }, { index := 1, operands := [.name 0] }]).ListingOk := by
  decide

end Sys2Proof.Tests
end

section
/-! PROOFS. The state (`10_state.md`): what an evaluation does to it, and that no step parts a module's outputs from
its inputs (R17, R103). -/

namespace Sys2Proof.Machine

/-- Settles O7: each equation is the operation's own `exec_` law, `Ports.present` and `State.nameLanes` written out. -/
theorem evaluationPresentsAndNames : Obligations.EvaluationPresentsAndNames := fun st =>
  ⟨exec_pack2x4 st, exec_unpack2x4 st, exec_pack4x6 st, exec_unpack4x6 st, exec_pack8x7 st, exec_unpack8x7 st⟩

/-- R31: whatever is presented to a module, its outputs show its function of it. -/
theorem Ports.follows_present {n m : Nat} (f : Lanes n → Lanes m) (x : Lanes n) : (Ports.present f x).Follows f :=
  Ports.present_out f x

/-- No port stands in the listing (R23), so taking its lines away parts no output from its inputs. -/
theorem State.OutputsFollow.setPending {st : State} (hst : st.OutputsFollow) (lines : List Line) :
    State.OutputsFollow { st with pending := lines } :=
  { hst with }

/-- An evaluation presents its inputs to one module, whose outputs follow them; the other five modules keep ports that
followed before. -/
theorem State.OutputsFollow.of_exec {i : Instr} {st t : State} (hst : st.OutputsFollow) (h : exec i st = .next t) :
    t.OutputsFollow := by
  cases i with
  | pack2x4 s => cases (exec_pack2x4 st s).symm.trans h; exact { hst with pairPack := Ports.follows_present .. }
  | unpack2x4 b => cases (exec_unpack2x4 st b).symm.trans h; exact { hst with pairUnpack := Ports.follows_present .. }
  | pack4x6 s => cases (exec_pack4x6 st s).symm.trans h; exact { hst with quadPack := Ports.follows_present .. }
  | unpack4x6 b => cases (exec_unpack4x6 st b).symm.trans h; exact { hst with quadUnpack := Ports.follows_present .. }
  | pack8x7 s => cases (exec_pack8x7 st s).symm.trans h; exact { hst with octetPack := Ports.follows_present .. }
  | unpack8x7 b => cases (exec_unpack8x7 st b).symm.trans h; exact { hst with octetUnpack := Ports.follows_present .. }

/-- Settles O54: a step does nothing or evaluates one line (`step_cases`), and an evaluation keeps the invariant. -/
theorem stepKeepsOutputsFollow : Obligations.StepKeepsOutputsFollow := by
  intro st t hst h
  obtain ⟨-, rfl⟩ | ⟨line, rest, i, -, -, hexec⟩ := step_cases h
  · exact hst
  · exact (hst.setPending rest).of_exec hexec

end Sys2Proof.Machine
end

section
/-! PROOFS. The lanes as an address space (`20_memory.md`): the flat view of R28, the decoder's and the step's refusals
(R30, decision D12), and evaluations in either order (R34). -/

namespace Sys2Proof

open Machine

/-! ### The flat view -/

/-- R28 by value: taking `i` lanes off the flat value leaves lane `i` least significant. -/
theorem flatOfLanes_div_mod : ∀ (lanes : List Byte) (i : Nat) (h : i < lanes.length),
    flatOfLanes lanes / 256 ^ i % 256 = lanes[i].toNat
  | b :: rest, 0, _ => by
    have hb := b.isLt
    simp only [flatOfLanes, pow_zero, Nat.div_one, List.getElem_cons_zero]
    omega
  | b :: rest, i + 1, h => by
    have hb := b.isLt
    have htail : flatOfLanes (b :: rest) / 256 = flatOfLanes rest := by simp only [flatOfLanes]; omega
    rw [pow_succ', ← Nat.div_div_eq_div_mul, htail, List.getElem_cons_succ]
    exact flatOfLanes_div_mod rest i (Nat.lt_of_succ_lt_succ h)

/-- R28 by bit: bit `j` of lane `i` is bit `8i+j` of the flat value. -/
theorem flatOfLanes_testBit (lanes : List Byte) (i j : Nat) (h : i < lanes.length) (hj : j < 8) :
    (flatOfLanes lanes).testBit (8 * i + j) = lanes[i].getLsbD j :=
  calc (flatOfLanes lanes).testBit (8 * i + j)
      = (flatOfLanes lanes / (2 ^ 8) ^ i % 2 ^ 8).testBit j := by
        rw [Nat.testBit_mod_two_pow, decide_eq_true hj, Bool.true_and, ← pow_mul,
          Nat.testBit_div_two_pow, Nat.add_comm]
    _ = lanes[i].toNat.testBit j := congrArg (Nat.testBit · j) (flatOfLanes_div_mod lanes i h)

/-- Settles O40: each lane by value and by bit (`flatOfLanes_div_mod`, `flatOfLanes_testBit`); the bound and the
round trips are the flat view's laws. -/
theorem flatViewOfLanes : Obligations.FlatViewOfLanes :=
  ⟨fun lanes i h => ⟨flatOfLanes_div_mod lanes i h, fun j hj => flatOfLanes_testBit lanes i j h hj⟩,
    fun lanes => ⟨flatOfLanes_lt lanes, lanesOfFlat_flatOfLanes lanes⟩, flatOfLanes_lanesOfFlat, rfl⟩

/-! ### What the decoder refuses -/

theorem decode_of_index_gt {index : Nat} (h : 5 < index) (lanes : List Byte) :
    decode index lanes = .error (.noSuchOperation index) := by
  simp [decode, Module.ofIndex?_eq_none_iff.2 h]

theorem decode_of_length_ne {m : Module} {lanes : List Byte} (h : lanes.length ≠ m.inputLanes) :
    decode m.index lanes = .error (.wrongLaneCount m.index lanes.length) := by
  simp [decode, decodeLanes_eq_none_iff.2 h]

theorem decode_of_length_eq {m : Module} {lanes : List Byte} (h : lanes.length = m.inputLanes) :
    ∃ i, decode m.index lanes = .ok i ∧ i.module = m ∧ i.inputs = lanes := by
  have hsome : decodeLanes m lanes ≠ none := fun hnone => decodeLanes_eq_none_iff.1 hnone h
  obtain ⟨i, hi⟩ := Option.ne_none_iff_exists'.1 hsome
  obtain ⟨rfl, rfl⟩ := decodeLanes_eq_some_iff.1 hi
  exact ⟨i, decode_eq_ok_iff.2 ⟨rfl, rfl⟩, rfl, rfl⟩

/-- Settles O43: the decoder's three answers, one lemma each. -/
theorem decodeRefusesByName : Obligations.DecodeRefusesByName :=
  ⟨fun _ lanes h => decode_of_index_gt h lanes, fun _ _ => ⟨decode_of_length_ne, decode_of_length_eq⟩⟩

/-- Settles O45: six closed words, which the decoder computes. -/
theorem listedWordsDecode : Obligations.ListedWordsDecode := by
  unfold Obligations.ListedWordsDecode
  decide

/-! ### Evaluations in either order -/

/-- What an evaluation puts out at its module's output ports, lane 0 first: the module's function of its inputs
(R31). -/
def Instr.outputs : Instr → List Byte
  | .pack2x4 s => (Machine.pack2x4 s).toList
  | .unpack2x4 b => (Machine.unpack2x4 b).toList
  | .pack4x6 s => (Machine.pack4x6 s).toList
  | .unpack4x6 b => (Machine.unpack4x6 b).toList
  | .pack8x7 s => (Machine.pack8x7 s).toList
  | .unpack8x7 b => (Machine.unpack8x7 b).toList

end Sys2Proof

namespace Sys2Proof.Machine

/-- What a module's ports show: the input lanes and the output lanes (R23). -/
def State.shown (st : State) (m : Module) : List Byte × List Byte := (st.inputs m, st.outputs m)

/-- Every evaluation completes and updates the ports of its own module, of all ports only these. -/
theorem exec_shown (i : Instr) (st : State) :
    ∃ t, exec i st = .next t ∧ t.shown = Function.update st.shown i.module (i.inputs, i.outputs) := by
  cases i with
  | pack2x4 s => exact ⟨_, exec_pack2x4 st s, funext fun m => by cases m <;> rfl⟩
  | unpack2x4 b => exact ⟨_, exec_unpack2x4 st b, funext fun m => by cases m <;> rfl⟩
  | pack4x6 s => exact ⟨_, exec_pack4x6 st s, funext fun m => by cases m <;> rfl⟩
  | unpack4x6 b => exact ⟨_, exec_unpack4x6 st b, funext fun m => by cases m <;> rfl⟩
  | pack8x7 s => exact ⟨_, exec_pack8x7 st s, funext fun m => by cases m <;> rfl⟩
  | unpack8x7 b => exact ⟨_, exec_unpack8x7 st b, funext fun m => by cases m <;> rfl⟩

/-- Settles O12: two evaluations are two updates of the ports, and updates at different modules commute. -/
theorem evaluationsOfTwoModulesCommute : Obligations.EvaluationsOfTwoModulesCommute := by
  intro i j st hne
  obtain ⟨t, hit, ht⟩ := exec_shown i st
  obtain ⟨u, hju, hu⟩ := exec_shown j t
  obtain ⟨t', hjt', ht'⟩ := exec_shown j st
  obtain ⟨u', hiu', hu'⟩ := exec_shown i t'
  have hshown : u.shown = u'.shown := by
    rw [hu, ht, hu', ht', Function.update_comm hne]
  exact ⟨t, u, t', u', hit, hju, hjt', hiu', fun m => Prod.mk.inj (congrFun hshown m)⟩

/-! ### What the step refuses -/

/-- What the decoder refuses of a line's lanes, the line is refused for. -/
theorem Line.instr_of_decode_error {named lanes : List Byte} {l : Line} {e : DecodeError}
    (hr : readOperands named l.operands = .ok lanes) (hd : decode l.index lanes = .error e) :
    l.instr named = .error (Refusal.ofDecodeError e) := by
  simp [Line.instr, hr, hd]

/-- A step with a line to evaluate that stands for no evaluation. -/
theorem step_of_instr_error {st : State} {line : Line} {rest : List Line} {r : Refusal}
    (hp : st.pending = line :: rest) (hr : line.instr st.named = .error r) : step st = .refused r := by
  simp [step, hp, hr]

/-- Settles O50: well-formed arguments read to as many lanes, a number the decoder refuses. -/
theorem stepRefusesWrongLaneCount : Obligations.StepRefusesWrongLaneCount := by
  intro st line rest m hp hidx hwf hne
  obtain ⟨lanes, hread, hlen⟩ := readOperands_of_wellFormed hwf
  have hdec : decode line.index lanes = .error (.wrongLaneCount line.index line.operands.length) := by
    rw [← hlen] at hne ⊢
    rw [hidx]
    exact decode_of_length_ne hne
  exact step_of_instr_error hp (Line.instr_of_decode_error hread hdec)

end Sys2Proof.Machine
end

section
/-! PROOFS. The encoding (`30_encoding.md`): the written form of an evaluation and the words of the opcode table
(R47), the lines of a listing and its run (R51, decision D10), the bit layouts (R41 to R45) and the live input bits
(R49). -/

namespace Sys2Proof

open Machine

/-! ### The written form of an evaluation -/

/-- A flat value that stays within a module's input lanes is decoded as those lanes. -/
theorem decodeFlat_of_lt {m : Module} {flat : Nat} (h : flat < 256 ^ m.inputLanes) :
    decodeFlat m.index flat = decode m.index (lanesOfFlat m.inputLanes flat) := by
  simp [decodeFlat, h]

/-- `decodeFlat` reads an index and a value only when the index is a module's and the value is within its lanes. -/
theorem decodeFlat_ok_bound {index flat : Nat} {i : Instr} (h : decodeFlat index flat = .ok i) :
    ∃ m : Module, index = m.index ∧ flat < 256 ^ m.inputLanes := by
  unfold decodeFlat at h
  split at h
  · cases h
  · next m hm =>
    split at h
    · next hlt => exact ⟨m, Module.ofIndex?_eq_some_iff.1 hm, hlt⟩
    · cases h

/-- The flat value of an evaluation's inputs stays within its module's input lanes. -/
theorem Instr.flat_inputs_lt (i : Instr) : flatOfLanes i.inputs < 256 ^ i.module.inputLanes :=
  i.inputs_length ▸ flatOfLanes_lt i.inputs

/-- The whole of `decodeFlat`, when it answers: the flat view is one to one on the values within the lanes. -/
theorem decodeFlat_eq_ok_iff {index flat : Nat} {i : Instr} :
    decodeFlat index flat = .ok i ↔ index = i.module.index ∧ flat = flatOfLanes i.inputs := by
  refine ⟨fun h => ?_, ?_⟩
  · obtain ⟨m, rfl, hlt⟩ := decodeFlat_ok_bound h
    rw [decodeFlat_of_lt hlt] at h
    obtain ⟨hidx, hlanes⟩ := decode_eq_ok_iff.1 h
    exact ⟨hidx, hlanes ▸ (flatOfLanes_lanesOfFlat _ _ hlt).symm⟩
  · rintro ⟨rfl, rfl⟩
    rw [decodeFlat_of_lt i.flat_inputs_lt, ← i.inputs_length, lanesOfFlat_flatOfLanes]
    exact decode_eq_ok_iff.2 ⟨rfl, rfl⟩

/-- Settles O42: each decoder answers exactly on an evaluation's own encoding. -/
theorem decodeEncodeRoundTrip : Obligations.DecodeEncodeRoundTrip := by
  refine ⟨fun i => ⟨decode_eq_ok_iff.2 ⟨rfl, rfl⟩, decodeFlat_eq_ok_iff.2 ⟨rfl, rfl⟩⟩, fun index lanes i h => ?_,
    fun index flat i h => ?_⟩
  · obtain ⟨rfl, rfl⟩ := decode_eq_ok_iff.1 h
    rfl
  · obtain ⟨rfl, rfl⟩ := decodeFlat_eq_ok_iff.1 h
    rfl

/-! ### The words of the opcode table -/

/-- Every flat value of `n` lanes is some lanes' flat value. -/
theorem exists_lanes_of_flat {n w : Nat} (h : w < 256 ^ n) : ∃ v : Lanes n, flatOfLanes v.toList = w :=
  ⟨⟨(lanesOfFlat n w).toArray, by simp⟩, flatOfLanes_lanesOfFlat n w h⟩

/-- A word of the width an operation reads decodes to the operation on the lanes whose flat value it is. -/
theorem decodeTableWord_eq_some {nbits w : Nat} {i : Instr} (hwidth : unpackIndexOfWidth nbits = some i.module.index)
    (hw : flatOfLanes i.inputs = w) : decodeTableWord nbits w = some i := by
  have hdec : decodeFlat i.module.index w = .ok i := decodeFlat_eq_ok_iff.2 ⟨rfl, hw.symm⟩
  simp [decodeTableWord, hwidth, hdec, Except.toOption]

/-! ### How many names an evaluation defines -/

/-- An evaluation puts out as many lanes as its module has output lanes. -/
@[simp] theorem Instr.outputs_length (i : Instr) : i.outputs.length = i.module.outputLanes := by
  cases i <;> exact Vector.length_toList ..

end Sys2Proof

namespace Sys2Proof.Machine

/-- The step that finds a table word placed in front of the listing evaluates what the word stands for. -/
theorem step_withFetchWord {nbits w : Nat} {i : Instr} (h : decodeTableWord nbits w = some i) (st : State) :
    step (st.withFetchWord nbits w) = exec i st := by
  have hline : Line.ofTableWord nbits w = Line.ofInstr i := by simp [Line.ofTableWord, h]
  exact step_of_instr (st := st.withFetchWord nbits w) (congrArg (· :: st.pending) hline) (Line.instr_ofInstr _ i)

/-- Every word of the width an operation reads is the flat value of some lanes, and is run as the operation on them. -/
theorem tableWord_runs {nbits n w : Nat} {op : Lanes n → Instr} (hop : ∀ b, (op b).inputs = b.toList)
    (hwidth : ∀ b, unpackIndexOfWidth nbits = some (op b).module.index) (h : w < 256 ^ n) :
    ∃ b : Lanes n, flatOfLanes b.toList = w ∧ decodeTableWord nbits w = some (op b) ∧
      ∀ st : State, step (st.withFetchWord nbits w) = exec (op b) st := by
  obtain ⟨b, hb⟩ := exists_lanes_of_flat h
  have hdec : decodeTableWord nbits w = some (op b) := decodeTableWord_eq_some (hwidth b) (hop b ▸ hb)
  exact ⟨b, hb, hdec, step_withFetchWord hdec⟩

/-- Settles O44: `tableWord_runs` at the three widths. -/
theorem tableWordRunsUnpack : Obligations.TableWordRunsUnpack :=
  ⟨fun _ => tableWord_runs (n := 1) (fun _ => rfl) (fun _ => rfl),
    fun _ => tableWord_runs (n := 3) (fun _ => rfl) (fun _ => rfl),
    fun _ => tableWord_runs (n := 7) (fun _ => rfl) (fun _ => rfl)⟩

/-! ### Arguments, lines and the run of a listing -/

theorem readOperands_cons_eq_ok_iff {named lanes : List Byte} {a : Operand} {rest : List Operand} :
    readOperands named (a :: rest) = .ok lanes ↔
      ∃ v vs, a.value named = .ok v ∧ readOperands named rest = .ok vs ∧ lanes = v :: vs := by
  cases hv : a.value named with
  | error r => simp [readOperands, hv]
  | ok v => cases hvs : readOperands named rest <;> simp [readOperands, hv, hvs, eq_comm]

/-- Arguments are read lane by lane, or not at all. -/
theorem readOperands_eq_ok_iff {named : List Byte} : ∀ {ops : List Operand} {lanes : List Byte},
    readOperands named ops = .ok lanes ↔ List.Forall₂ (fun a v => a.value named = .ok v) ops lanes
  | [], lanes => by simp [readOperands, eq_comm]
  | a :: rest, lanes => by
    simp only [readOperands_cons_eq_ok_iff, List.forall₂_cons_left_iff, readOperands_eq_ok_iff (ops := rest)]

/-- Settles O47: the values of one argument by definition, of a list of them lane by lane. -/
theorem argumentsAreLiteralsOrNames : Obligations.ArgumentsAreLiteralsOrNames := fun named =>
  ⟨fun _ => rfl, fun n h => by simp [Operand.value, h], fun _ _ => readOperands_eq_ok_iff⟩

theorem Line.wellFormed_iff {defined : Nat} {l : Line} :
    l.wellFormed defined = true ↔
      ∃ m : Module, l.index = m.index ∧ l.operands.length = m.inputLanes ∧
        l.operands.all (Operand.wellFormed defined) = true := by
  unfold Line.wellFormed
  split
  · next hnone =>
    refine iff_of_false Bool.false_ne_true ?_
    rintro ⟨m, hidx, -⟩
    simp [hidx] at hnone
  · next m hm =>
    rw [Bool.and_eq_true, beq_iff_eq]
    exact ⟨fun h => ⟨m, Module.ofIndex?_eq_some_iff.1 hm, h⟩, fun ⟨m', hidx, h⟩ => by
      rw [hidx, Module.ofIndex?_index] at hm
      exact Option.some.inj hm ▸ h⟩

/-- A line that is well formed over the named values stands for an evaluation, which puts out the line's names. -/
theorem Line.instr_of_wellFormed {named : List Byte} {l : Line} (h : l.wellFormed named.length = true) :
    ∃ i, l.instr named = .ok i ∧ l.definedNames = i.module.outputLanes := by
  obtain ⟨m, hidx, hlen, hops⟩ := Line.wellFormed_iff.1 h
  obtain ⟨lanes, hread, hlanes⟩ := readOperands_of_wellFormed hops
  obtain ⟨i, -, rfl, rfl⟩ := decode_of_length_eq (hlanes.trans hlen)
  exact ⟨i, Line.instr_eq_ok_iff.2 ⟨hread, hidx⟩, by simp [Line.definedNames, hidx]⟩

/-- What every evaluation does to the listing: it names its outputs and takes no line (log 3). -/
theorem exec_names_outputs (i : Instr) (st : State) :
    ∃ t, exec i st = .next t ∧ t.named = st.named ++ i.outputs ∧ t.pending = st.pending := by
  cases i with
  | pack2x4 s => exact ⟨_, exec_pack2x4 st s, rfl, rfl⟩
  | unpack2x4 b => exact ⟨_, exec_unpack2x4 st b, rfl, rfl⟩
  | pack4x6 s => exact ⟨_, exec_pack4x6 st s, rfl, rfl⟩
  | unpack4x6 b => exact ⟨_, exec_unpack4x6 st b, rfl, rfl⟩
  | pack8x7 s => exact ⟨_, exec_pack8x7 st s, rfl, rfl⟩
  | unpack8x7 b => exact ⟨_, exec_unpack8x7 st b, rfl, rfl⟩

/-- A step of a feed-forward listing with a line left: the line is taken, its names are added, and what is left is
feed-forward over all the names there are now. -/
theorem State.ListingOk.step_cons {st : State} {line : Line} {rest : List Line} (h : st.ListingOk)
    (hp : st.pending = line :: rest) :
    ∃ t, step st = .next t ∧ t.ListingOk ∧ t.pending = rest ∧ st.named <+: t.named ∧
      t.named.length = st.named.length + line.definedNames := by
  rw [State.ListingOk, hp, listingWellFormed, Bool.and_eq_true] at h
  obtain ⟨hline, hrest⟩ := h
  obtain ⟨i, hi, hdef⟩ := Line.instr_of_wellFormed hline
  obtain ⟨t, hexec, hnamed, hpend⟩ := exec_names_outputs i { st with pending := rest }
  have hlen : t.named.length = st.named.length + line.definedNames := by simp [hnamed, hdef]
  refine ⟨t, (step_of_instr hp hi).trans hexec, ?_, hpend, hnamed ▸ List.prefix_append .., hlen⟩
  rwa [State.ListingOk, hlen, hpend]

/-- Settles O55: with no line left the state stays, and with one left it is taken (`State.ListingOk.step_cons`). -/
theorem stepOfFeedForwardListingCompletes : Obligations.StepOfFeedForwardListingCompletes := by
  intro st h
  cases hp : st.pending with
  | nil => exact ⟨st, by simp [step, hp], h⟩
  | cons line rest =>
    obtain ⟨t, hstep, hok, -⟩ := h.step_cons hp
    exact ⟨t, hstep, hok⟩

/-- A run that begins with a step goes on as the run from where the step ends. -/
theorem run_succ_of_step {M : Host.Core} {st t : M.State} (h : M.step st = .next t) (k : Nat) :
    M.run (k + 1) st = M.run k t := by
  rw [Host.Core.run, h]

/-- The run of a feed-forward listing, by induction over its lines. -/
theorem run_listing (lines : List Line) : ∀ st : State, st.pending = lines → st.ListingOk →
    ∃ t : State, core.run lines.length st = .next t ∧ t.pending = [] ∧ st.named <+: t.named ∧
      t.named.length = st.named.length + (lines.map Line.definedNames).sum := by
  induction lines with
  | nil => exact fun st hp _ => ⟨st, rfl, hp, List.prefix_rfl, rfl⟩
  | cons line rest ih =>
    intro st hp hok
    obtain ⟨u, hstep, huok, hup, hupre, hulen⟩ := hok.step_cons hp
    obtain ⟨t, hrun, htp, htpre, htlen⟩ := ih u hup huok
    refine ⟨t, (run_succ_of_step (M := core) hstep _).trans hrun, htp, hupre.trans htpre, ?_⟩
    rw [htlen, hulen, List.map_cons, List.sum_cons, Nat.add_assoc]

/-- Settles O56: `run_listing` at the lines that are pending. -/
theorem feedForwardListingRunsToItsEnd : Obligations.FeedForwardListingRunsToItsEnd :=
  fun st h => run_listing st.pending st rfl h

/-! ### Masks and shifts, bit by bit -/

/-- The bits set in `mask` are those from `k` up: the high mask of a codec with `k` value bits (R46). -/
def HighMask (k : Nat) (mask : Byte) : Prop := ∀ j < 8, mask.getLsbD j = decide (k ≤ j)

/-- The bits set in `mask` are those below `k`: the low mask of a codec with `k` value bits (R46). -/
def LowMask (k : Nat) (mask : Byte) : Prop := ∀ j < 8, mask.getLsbD j = decide (j < k)

theorem highMask_quad : HighMask 6 quadMaskHi := by unfold HighMask; decide
theorem highMask_octet : HighMask 7 octetMaskHi := by unfold HighMask; decide
theorem lowMask_pair : LowMask 4 pairMaskLo := by unfold LowMask; decide
theorem lowMask_quad : LowMask 6 quadMaskLo := by unfold LowMask; decide
theorem lowMask_octet : LowMask 7 octetMaskLo := by unfold LowMask; decide

section
variable {k n : Nat} {hi lo : Byte} (v : Byte)

/-- Masking keeps the bits of the mask. -/
theorem and_bit_of_mask {mask : Byte} {p : Nat → Bool} (h : ∀ j < 8, mask.getLsbD j = p j) (j : Nat) :
    (v &&& mask).getLsbD j = (p j && v.getLsbD j) := by
  rw [BitVec.getLsbD_and, Bool.and_comm]
  by_cases hj : j < 8
  · rw [h j hj]
  · simp [BitVec.getLsbD_of_ge _ _ (Nat.le_of_not_lt hj)]

theorem HighMask.and_bit (h : HighMask k hi) (j : Nat) :
    (v &&& hi).getLsbD j = (decide (k ≤ j) && v.getLsbD j) :=
  and_bit_of_mask v h j

theorem LowMask.and_bit (h : LowMask k lo) (j : Nat) :
    (v &&& lo).getLsbD j = (decide (j < k) && v.getLsbD j) :=
  and_bit_of_mask v h j

/-- What a left shift by at most `k` puts into the bits from `k` up (R44, R45 on pack). -/
theorem HighMask.shl8_and_bit (h : HighMask k hi) (hn : n ≤ k) {j : Nat} (hj : j < 8) :
    (shl8 v n &&& hi).getLsbD j = (decide (k ≤ j) && v.getLsbD (j - n)) := by
  rw [h.and_bit, shl8_getLsbD]
  by_cases hk : k ≤ j
  · simp [hj, hk, Nat.not_lt.2 (hn.trans hk)]
  · simp [hk]

/-- What a right shift takes out of the bits from `k` up (R44, R45 on unpack). -/
theorem HighMask.shr8_and_bit (h : HighMask k hi) (n j : Nat) :
    (shr8 (v &&& hi) n).getLsbD j = (decide (k ≤ n + j) && v.getLsbD (n + j)) := by
  rw [shr8_getLsbD, h.and_bit]

/-- A left shift by `8 − k` or more loses the bits from `k` up. -/
theorem HighMask.shl8_masked (h : HighMask k hi) (hn : 8 ≤ k + n) : shl8 (v &&& hi) n = 0 := by
  refine byte_ext fun j hj => ?_
  have hlost : ¬ k ≤ j - n ∨ j < n := by omega
  rw [shl8_getLsbD, h.and_bit]
  obtain hlost | hlost := hlost <;> simp [hlost]

/-- A left shift by `8 − k` or more reads the bits below `k` alone. -/
theorem LowMask.shl8_masked (h : LowMask k lo) (hn : 8 ≤ k + n) : shl8 (v &&& lo) n = shl8 v n := by
  refine byte_ext fun j hj => ?_
  have hread : j - n < k ∨ j < n := by omega
  rw [shl8_getLsbD, shl8_getLsbD, h.and_bit]
  obtain hread | hread := hread <;> simp [hread]

/-- The bits from `k` up, shifted right by `n`, stand in the `8 − k` bits from `k − n` up alone. -/
theorem HighMask.shr8_disjoint (h : HighMask k hi) (hlo : LowMask (8 - k) lo) {m : Nat} (hm : m + n = k) :
    shr8 (v &&& hi) n &&& ~~~shl8 lo m = 0 := by
  refine byte_ext fun j hj => ?_
  rw [BitVec.getLsbD_and, BitVec.getLsbD_not, h.shr8_and_bit, shl8_getLsbD]
  by_cases hin : k ≤ n + j ∧ n + j < 8
  · have hset : lo.getLsbD (j - m) = true := (hlo _ (by omega)).trans (decide_eq_true (by omega))
    have hge : ¬ j < m := by omega
    simp [hset, hge, hj]
  · obtain hout | hout := not_and_or.1 hin
    · simp [hout]
    · simp [BitVec.getLsbD_of_ge _ _ (Nat.le_of_not_lt hout)]

end

/-- An in-range value has no bit from `k` up (R87). -/
theorem getLsbD_of_inRange {k j : Nat} {v : Byte} (h : InRange k v) (hj : k ≤ j) : v.getLsbD j = false := by
  have hlt : v.toNat < 2 ^ k := Nat.lt_of_le_pred (Nat.two_pow_pos k) h
  exact Nat.testBit_lt_two_pow (hlt.trans_le (Nat.pow_le_pow_right Nat.two_pos hj))

/-! ### The bit layouts -/

theorem pack2x4_bit (s : Lanes 2) {j : Nat} (hj : j < 8) :
    (pack2x4 s)[0].getLsbD j = if j < 4 then s[0].getLsbD j else s[1].getLsbD (j - 4) := by
  rw [pack2x4_lane0, BitVec.getLsbD_or, shl8_getLsbD, lowMask_pair.and_bit (lo := 0x0F)]
  split <;> simp [*]

/-- Settles O35: the Block's bits by `pack2x4_bit`, the Samples' by the low mask and the shift. -/
theorem pairLayout : Obligations.PairLayout := by
  refine ⟨fun s j hj => ⟨?_, ?_⟩, fun b j hj => ⟨?_, ?_⟩⟩
  · rw [pack2x4_bit s (by omega), if_pos hj]
  · rw [pack2x4_bit s (by omega), if_neg (by omega), Nat.add_sub_cancel]
  · rw [unpack2x4_lane0, lowMask_pair.and_bit (lo := 0x0F), decide_eq_true hj, Bool.true_and]
  · rw [unpack2x4_lane1, shr8_getLsbD, Nat.add_comm]

theorem pack4x6_bit (s : Lanes 4) {i j : Nat} (hi : i < 3) (hj : j < 8) :
    (pack4x6 s)[i].getLsbD j = (s[i + 1].getLsbD j || (decide (6 ≤ j) && s[0].getLsbD (j - quadShift i))) := by
  rw [pack4x6_lane s i hi, BitVec.getLsbD_or, highMask_quad.shl8_and_bit _ (by simp only [quadShift]; omega) hj]

theorem pack8x7_bit (s : Lanes 8) {i j : Nat} (hi : i < 7) (hj : j < 8) :
    (pack8x7 s)[i].getLsbD j = (s[i + 1].getLsbD j || (decide (7 ≤ j) && s[0].getLsbD (j - octetShift i))) := by
  rw [pack8x7_lane s i hi, BitVec.getLsbD_or, highMask_octet.shl8_and_bit _ (by simp only [octetShift]; omega) hj]

theorem unpack4x6_lane0_wires (b : Lanes 3) :
    (unpack4x6 b)[0] = byteOfWires false false (b[0].getLsbD 7) (b[0].getLsbD 6) (b[1].getLsbD 7) (b[1].getLsbD 6)
      (b[2].getLsbD 7) (b[2].getLsbD 6) := by
  refine byte_ext fun j hj => ?_
  simp only [unpack4x6_lane0, BitVec.getLsbD_or, highMask_quad.shr8_and_bit (hi := 0xC0), byteOfWires_getLsbD (h := hj)]
  interval_cases j <;> simp

theorem unpack8x7_lane0_wires (b : Lanes 7) :
    (unpack8x7 b)[0] = byteOfWires false (b[0].getLsbD 7) (b[1].getLsbD 7) (b[2].getLsbD 7) (b[3].getLsbD 7)
      (b[4].getLsbD 7) (b[5].getLsbD 7) (b[6].getLsbD 7) := by
  refine byte_ext fun j hj => ?_
  simp only [unpack8x7_lane0, BitVec.getLsbD_or, highMask_octet.shr8_and_bit (hi := 0x80),
    byteOfWires_getLsbD (h := hj)]
  interval_cases j <;> simp

/-- R28 for the lanes of a port. -/
theorem flatOfLanes_toList_testBit {n : Nat} (v : Lanes n) {i j : Nat} (hi : i < n) (hj : j < 8) :
    (flatOfLanes v.toList).testBit (8 * i + j) = v[i].getLsbD j := by
  rw [flatOfLanes_testBit v.toList i j (by simpa using hi) hj, Vector.getElem_toList]

/-- Sample `s[i+1]` comes back from the low six bits of Block `i`. -/
theorem unpack4x6_succ_bit (b : Lanes 3) {i j : Nat} (hi : i < 3) :
    (unpack4x6 b)[i + 1].getLsbD j = (decide (j < 6) && b[i].getLsbD j) := by
  rw [unpack4x6_lane_succ b i hi, lowMask_quad.and_bit]

theorem unpack8x7_succ_bit (b : Lanes 7) {i j : Nat} (hi : i < 7) :
    (unpack8x7 b)[i + 1].getLsbD j = (decide (j < 7) && b[i].getLsbD j) := by
  rw [unpack8x7_lane_succ b i hi, lowMask_octet.and_bit]

/-- The bits of sample0 that Block `i` of the Quad codec brings back (R44). -/
theorem unpack4x6_lane0_bits (b : Lanes 3) (i : Fin 3) :
    (unpack4x6 b)[0].getLsbD (4 - 2 * i.val) = b[i].getLsbD 6 ∧
    (unpack4x6 b)[0].getLsbD (5 - 2 * i.val) = b[i].getLsbD 7 := by
  rw [unpack4x6_lane0_wires, byteOfWires_getLsbD (h := by omega), byteOfWires_getLsbD (h := by omega)]
  fin_cases i <;> exact ⟨rfl, rfl⟩

/-- The bit of sample0 that Block `i` of the Octet codec brings back (R45). -/
theorem unpack8x7_lane0_bit (b : Lanes 7) (i : Fin 7) : (unpack8x7 b)[0].getLsbD (6 - i.val) = b[i].getLsbD 7 := by
  rw [unpack8x7_lane0_wires, byteOfWires_getLsbD (h := by omega)]
  fin_cases i <;> rfl

/-- The high pair of a Block of an in-range Group carries sample0 alone (R42). -/
theorem pack4x6_high_bit {s : Lanes 4} (hs : GroupInRange 6 s) (i : Fin 3) {j : Nat} (hj : 6 ≤ j) (hj8 : j < 8) :
    (pack4x6 s)[i.val].getLsbD j = s[0].getLsbD (j - quadShift i.val) := by
  have hzero : s[i.val + 1].getLsbD j = false := getLsbD_of_inRange (hs ⟨i.val + 1, by omega⟩) hj
  rw [pack4x6_bit s i.isLt hj8, hzero, decide_eq_true hj, Bool.false_or, Bool.true_and]

/-- Bit 7 of a Block of an in-range Group carries sample0 alone (R43). -/
theorem pack8x7_high_bit {s : Lanes 8} (hs : GroupInRange 7 s) (i : Fin 7) :
    (pack8x7 s)[i.val].getLsbD 7 = s[0].getLsbD (7 - octetShift i.val) := by
  have hzero : s[i.val + 1].getLsbD 7 = false := getLsbD_of_inRange (hs ⟨i.val + 1, by omega⟩) le_rfl
  rw [pack8x7_bit s i.isLt (by omega), hzero, Bool.false_or, decide_eq_true le_rfl, Bool.true_and]

/-- Settles O36: bit `8i+j` of the flat view is bit `j` of Block `i`, whose bits the two functions' bit lemmas give. -/
theorem quadLayout : Obligations.QuadLayout := by
  refine ⟨fun s i hs => ⟨fun j hj => ?_, ?_, ?_⟩, fun b i => ⟨fun j hj => ?_, ?_, ?_⟩, by decide⟩
  · rw [flatOfLanes_toList_testBit _ i.isLt (by omega), pack4x6_bit s i.isLt (by omega),
      decide_eq_false (by omega), Bool.false_and, Bool.or_false]
  · rw [flatOfLanes_toList_testBit _ i.isLt (by omega), pack4x6_high_bit hs i (by omega) (by omega)]
    congr 1; simp only [quadShift]; omega
  · rw [flatOfLanes_toList_testBit _ i.isLt (by omega), pack4x6_high_bit hs i (by omega) (by omega)]
    congr 1; simp only [quadShift]; omega
  · rw [flatOfLanes_toList_testBit _ i.isLt (by omega), unpack4x6_succ_bit b i.isLt, decide_eq_true hj, Bool.true_and]
  · rw [flatOfLanes_toList_testBit _ i.isLt (by omega)]
    exact (unpack4x6_lane0_bits b i).1
  · rw [flatOfLanes_toList_testBit _ i.isLt (by omega)]
    exact (unpack4x6_lane0_bits b i).2

/-- Settles O37: as for the Quad codec. -/
theorem octetLayout : Obligations.OctetLayout := by
  refine ⟨fun s i hs => ⟨fun j hj => ?_, ?_⟩, fun b i => ⟨fun j hj => ?_, ?_⟩, by decide⟩
  · rw [flatOfLanes_toList_testBit _ i.isLt (by omega), pack8x7_bit s i.isLt (by omega),
      decide_eq_false (by omega), Bool.false_and, Bool.or_false]
  · rw [flatOfLanes_toList_testBit _ i.isLt (by omega), pack8x7_high_bit hs i]
    congr 1; simp only [octetShift]; omega
  · rw [flatOfLanes_toList_testBit _ i.isLt (by omega), unpack8x7_succ_bit b i.isLt, decide_eq_true hj, Bool.true_and]
  · rw [flatOfLanes_toList_testBit _ i.isLt (by omega)]
    exact unpack8x7_lane0_bit b i

/-! ### sample0 scattered and gathered -/

/-- Settles O38: the contribution of sample0 by `HighMask.shl8_and_bit`, the terms on unpack disjoint by
`HighMask.shr8_disjoint`. -/
theorem quadSample0Assembly : Obligations.QuadSample0Assembly := by
  refine ⟨fun s i => ?_, fun b => ⟨rfl, fun i => ?_, unpack4x6_lane0_wires b⟩⟩
  · have hbit {j : Nat} (hj : j < 8) : (shl8 s[0] (2 * (i.val + 1)) &&& 0xC0).getLsbD j =
        (decide (6 ≤ j) && s[0].getLsbD (j - 2 * (i.val + 1))) := highMask_quad.shl8_and_bit _ (by omega) hj
    refine ⟨?_, ?_, ?_, fun j hj => ?_, ?_⟩
    · fin_cases i <;> exact BitVec.zero_or
    · rw [hbit (by omega), show 7 - 2 * (i.val + 1) = 5 - 2 * i.val by omega]; rfl
    · rw [hbit (by omega), show 6 - 2 * (i.val + 1) = 4 - 2 * i.val by omega]; rfl
    · rw [hbit (by omega), decide_eq_false (by omega), Bool.false_and]
    · rw [highMask_quad.shl8_masked (hi := 0xC0) _ (by omega)]; rfl
  · exact highMask_quad.shr8_disjoint _ (by unfold LowMask; decide) (by omega)

/-- Settles O39: as for the Quad codec. -/
theorem octetSample0Assembly : Obligations.OctetSample0Assembly := by
  refine ⟨fun s i => ?_, fun b => ⟨?_, fun i => ?_, unpack8x7_lane0_wires b⟩⟩
  · have hbit {j : Nat} (hj : j < 8) : (shl8 s[0] (i.val + 1) &&& 0x80).getLsbD j =
        (decide (7 ≤ j) && s[0].getLsbD (j - (i.val + 1))) := highMask_octet.shl8_and_bit _ (by omega) hj
    refine ⟨?_, ?_, fun j hj => ?_, ?_⟩
    · fin_cases i <;> exact BitVec.zero_or
    · rw [hbit (by omega), show 7 - (i.val + 1) = 6 - i.val by omega]; rfl
    · rw [hbit (by omega), decide_eq_false (by omega), Bool.false_and]
    · rw [highMask_octet.shl8_masked (hi := 0x80) _ (by omega)]; rfl
  · simp [List.finRange_succ]
  · exact highMask_octet.shr8_disjoint _ (by unfold LowMask; decide) (by omega)

/-! ### Live and ignored input bits -/

/-- A bit is live once `f` tells it, set alone, from all zeros. -/
theorem exactlyLive_of {n m : Nat} {f : Lanes n → Lanes m} {mask : Lanes n}
    (hignored : ∀ x y : Lanes n, (∀ i : Fin n, x[i] &&& mask[i] = y[i] &&& mask[i]) → f x = f y)
    (hlive : ∀ (i : Fin n), ∀ j < 8, mask[i].getLsbD j = true →
      f (flipBit (Vector.replicate n 0) i j) ≠ f (Vector.replicate n 0)) : ExactlyLive f mask :=
  ⟨hignored, fun i j h => ⟨_, hlive i j (BitVec.lt_of_getLsbD h) h⟩⟩

/-- On a lane with every bit live, inputs that agree on the live bits are equal. -/
theorem eq_of_live_lane {x y mask : Byte} (hmask : mask = 0xFF) (h : x &&& mask = y &&& mask) : x = y := by
  have hones : mask = BitVec.allOnes 8 := hmask
  rwa [hones, BitVec.and_allOnes, BitVec.and_allOnes] at h

/-- A shift by `8 − k` or more is the same of inputs that agree below bit `k`. -/
theorem LowMask.shl8_congr {k n : Nat} {lo x y : Byte} (h : LowMask k lo) (hn : 8 ≤ k + n)
    (hxy : x &&& lo = y &&& lo) : shl8 x n = shl8 y n := by
  rw [← h.shl8_masked x hn, hxy, h.shl8_masked y hn]

theorem exactlyLive_pack2x4 : ExactlyLive pack2x4 #v[0x0F, 0x0F] := by
  refine exactlyLive_of (fun x y h => lanes_ext fun i => ?_) (by decide)
  have hshl : shl8 x[1] 4 = shl8 y[1] 4 := lowMask_pair.shl8_congr (by omega) (h 1)
  have hlow : x[0] &&& 0x0F = y[0] &&& 0x0F := h 0
  fin_cases i
  exact congrArg₂ (· ||| ·) hshl hlow

theorem exactlyLive_pack4x6 : ExactlyLive pack4x6 #v[0x3F, 0xFF, 0xFF, 0xFF] := by
  refine exactlyLive_of (fun x y h => lanes_ext fun i => ?_) (by decide)
  have hmask : ∀ i : Fin 3, (#v[0x3F, 0xFF, 0xFF, 0xFF] : Lanes 4)[i.val + 1] = 0xFF := by decide
  have hlane : x[i.val + 1] = y[i.val + 1] := eq_of_live_lane (hmask i) (h ⟨i.val + 1, by omega⟩)
  have hshl : shl8 x[0] (quadShift i.val) = shl8 y[0] (quadShift i.val) :=
    lowMask_quad.shl8_congr (by simp only [quadShift]; omega) (h 0)
  change (pack4x6 x)[i.val] = (pack4x6 y)[i.val]
  rw [pack4x6_lane x i i.isLt, pack4x6_lane y i i.isLt, hlane, hshl]

theorem exactlyLive_pack8x7 : ExactlyLive pack8x7 #v[0x7F, 0xFF, 0xFF, 0xFF, 0xFF, 0xFF, 0xFF, 0xFF] := by
  refine exactlyLive_of (fun x y h => lanes_ext fun i => ?_) (by decide)
  have hmask : ∀ i : Fin 7, (#v[0x7F, 0xFF, 0xFF, 0xFF, 0xFF, 0xFF, 0xFF, 0xFF] : Lanes 8)[i.val + 1] = 0xFF := by
    decide
  have hlane : x[i.val + 1] = y[i.val + 1] := eq_of_live_lane (hmask i) (h ⟨i.val + 1, by omega⟩)
  have hshl : shl8 x[0] (octetShift i.val) = shl8 y[0] (octetShift i.val) :=
    lowMask_octet.shl8_congr (by simp only [octetShift]; omega) (h 0)
  change (pack8x7 x)[i.val] = (pack8x7 y)[i.val]
  rw [pack8x7_lane x i i.isLt, pack8x7_lane y i i.isLt, hlane, hshl]

/-- Where every bit of every lane is in `mask`, inputs that agree on `mask` are equal. -/
theorem eq_of_agree_on_full {n : Nat} {mask x y : Lanes n} (hmask : ∀ i : Fin n, mask[i] = 0xFF)
    (h : ∀ i : Fin n, x[i] &&& mask[i] = y[i] &&& mask[i]) : x = y :=
  lanes_ext fun i => eq_of_live_lane (hmask i) (h i)

theorem exactlyLive_unpack2x4 : ExactlyLive unpack2x4 #v[0xFF] :=
  exactlyLive_of (fun _ _ h => congrArg _ (eq_of_agree_on_full (by decide) h)) (by decide)

theorem exactlyLive_unpack4x6 : ExactlyLive unpack4x6 #v[0xFF, 0xFF, 0xFF] :=
  exactlyLive_of (fun _ _ h => congrArg _ (eq_of_agree_on_full (by decide) h)) (by decide)

theorem exactlyLive_unpack8x7 : ExactlyLive unpack8x7 #v[0xFF, 0xFF, 0xFF, 0xFF, 0xFF, 0xFF, 0xFF] :=
  exactlyLive_of (fun _ _ h => congrArg _ (eq_of_agree_on_full (by decide) h)) (by decide)

/-- Settles O32: the six operations one by one; the counts are computed. -/
theorem liveInputBits : Obligations.LiveInputBits :=
  ⟨exactlyLive_pack2x4, by decide, exactlyLive_pack4x6, by decide, exactlyLive_pack8x7, by decide,
    exactlyLive_unpack2x4, exactlyLive_unpack4x6, exactlyLive_unpack8x7⟩

end Sys2Proof.Machine
end

section
/-! PROOFS. The Pair codec (`40_pair_codec.md`): the results of its two operations (R53, R54), its laws (R55, R56, R58)
and its wiring (R57). What is said of masks, ranges and bijections for any width serves every codec. -/

namespace Sys2Proof.Machine

/-! ### Values in range -/

/-- R87 by bits: a value is in range exactly when no bit from `k` up is set. -/
theorem inRange_iff_high_bits_zero {k : Nat} {v : Byte} : InRange k v ↔ ∀ j, k ≤ j → v.getLsbD j = false := by
  refine ⟨fun h j => getLsbD_of_inRange h, fun h => Nat.le_sub_one_of_lt ?_⟩
  exact Nat.lt_pow_two_of_testBit _ h

/-- Masking to the bits below `k` changes no value that is in range. -/
theorem LowMask.and_of_inRange {k : Nat} {lo v : Byte} (hlo : LowMask k lo) (hv : InRange k v) : v &&& lo = v := by
  refine byte_ext fun j _ => ?_
  rw [hlo.and_bit]
  by_cases hj : j < k
  · rw [decide_eq_true hj, Bool.true_and]
  · rw [getLsbD_of_inRange hv (Nat.le_of_not_lt hj), Bool.and_false]

/-- R88 from its parts: each function undoes the other, pack on every in-range Group and unpack on everything, and two
Groups are packed alike. -/
theorem codecBijective_of {n m k : Nat} {pack : Lanes n → Lanes m} {unpack : Lanes m → Lanes n} {x y : Lanes n}
    (hpack : ∀ b, pack (unpack b) = b) (hunpack : ∀ s, GroupInRange k s → unpack (pack s) = s)
    (hrange : ∀ b, GroupInRange k (unpack b)) (hne : x ≠ y) (hxy : pack x = pack y) :
    CodecBijective k pack unpack :=
  have hinv : Set.InvOn unpack pack {s : Lanes n | GroupInRange k s} Set.univ := ⟨hunpack, fun b _ => hpack b⟩
  { bijOn := hinv.bijOn (Set.mapsTo_univ ..) fun b _ => hrange b
    invOn := hinv
    notInjective := fun hinj => hne (hinj hxy) }

/-! ### The two operations -/

theorem lanes_two_eq_iff {x y : Lanes 2} : x = y ↔ x[0] = y[0] ∧ x[1] = y[1] := by
  refine ⟨fun h => h ▸ ⟨rfl, rfl⟩, fun ⟨h0, h1⟩ => Vector.ext fun i hi => ?_⟩
  match i, hi with
  | 0, _ => exact h0
  | 1, _ => exact h1

/-- The bits of the Samples: each is one half of the Block, with zeros above (R54). -/
theorem unpack2x4_bit (b : Lanes 1) {i : Nat} (hi : i < 2) (j : Nat) :
    (unpack2x4 b)[i].getLsbD j = (decide (j < 4) && b[0].getLsbD (4 * i + j)) := by
  match i, hi with
  | 0, _ => rw [unpack2x4_lane0, lowMask_pair.and_bit (lo := 0x0F), Nat.mul_zero, Nat.zero_add]
  | 1, _ =>
    rw [unpack2x4_lane1, shr8_getLsbD, Nat.mul_one]
    by_cases hj : j < 4
    · rw [decide_eq_true hj, Bool.true_and]
    · rw [BitVec.getLsbD_of_ge _ _ (by omega), Bool.and_false]

/-- Unpacked Samples are in range, whatever the Block (R78). -/
theorem unpack2x4_inRange (b : Lanes 1) : GroupInRange 4 (unpack2x4 b) := fun i =>
  inRange_iff_high_bits_zero.2 fun j hj => by
    rw [Fin.getElem_fin, unpack2x4_bit b i.isLt, decide_eq_false (Nat.not_lt.2 hj), Bool.false_and]

/-- Settles O1: the operation's `exec_` law, with the bits of the Block from the layout (R41). -/
theorem pack2x4Result : Obligations.Pack2x4Result := fun s st =>
  ⟨_, exec_pack2x4 st s, rfl, pack2x4_lane0 s, pairLayout.1 s⟩

/-- Settles O2: the operation's `exec_` law; the low bits are the layout's (R41) and the high ones those of Samples in
range. -/
theorem unpack2x4Result : Obligations.Unpack2x4Result := fun b st =>
  ⟨_, exec_unpack2x4 st b, rfl, unpack2x4_lane0 b, unpack2x4_lane1 b, fun j hj =>
    have hhigh (i : Fin 2) : (unpack2x4 b)[i].getLsbD (j + 4) = false :=
      getLsbD_of_inRange (unpack2x4_inRange b i) (Nat.le_add_left 4 j)
    have ⟨hlow0, hlow1⟩ := pairLayout.2 b j hj
    ⟨hlow0, hhigh 0, hlow1, hhigh 1⟩⟩

/-! ### Round trips and truncation -/

/-- The Block's half that carries a Sample has the Sample's low four bits (R41). -/
theorem pack2x4_half_bit (s : Lanes 2) {i j : Nat} (hi : i < 2) (hj : j < 4) :
    (pack2x4 s)[0].getLsbD (4 * i + j) = s[i].getLsbD j := by
  obtain ⟨hlow, hhigh⟩ := pairLayout.1 s j hj
  match i, hi with
  | 0, _ => rwa [Nat.mul_zero, Nat.zero_add]
  | 1, _ => rwa [Nat.mul_one, Nat.add_comm]

/-- R56: what comes back of a packed Group is each Sample's low four bits. -/
theorem unpack2x4_pack2x4 (s : Lanes 2) : unpack2x4 (pack2x4 s) = s.map (· &&& pairMaskLo) := by
  refine Vector.ext fun i hi => byte_ext fun j _ => ?_
  rw [unpack2x4_bit _ hi, Vector.getElem_map, lowMask_pair.and_bit]
  by_cases hj : j < 4
  · rw [pack2x4_half_bit s hi hj]
  · rw [decide_eq_false hj, Bool.false_and, Bool.false_and]

/-- R55: on a Group in range the low four bits are all there is. -/
theorem unpack2x4_pack2x4_of_inRange {s : Lanes 2} (hs : GroupInRange 4 s) : unpack2x4 (pack2x4 s) = s := by
  refine (unpack2x4_pack2x4 s).trans (Vector.ext fun i hi => ?_)
  rw [Vector.getElem_map]
  exact lowMask_pair.and_of_inRange (hs ⟨i, hi⟩)

/-- R58: the two halves of a Block, put together, are the Block. -/
theorem pack2x4_unpack2x4 (b : Lanes 1) : pack2x4 (unpack2x4 b) = b := by
  refine Vector.ext fun i hi => byte_ext fun j hj => ?_
  obtain rfl : i = 0 := Nat.lt_one_iff.1 hi
  rw [pack2x4_bit _ hj]
  split
  · next hlow => rw [unpack2x4_bit b (by omega), decide_eq_true hlow, Bool.true_and, Nat.mul_zero, Nat.zero_add]
  · next hhigh =>
    rw [unpack2x4_bit b (by omega), decide_eq_true (by omega), Bool.true_and, Nat.mul_one,
      Nat.add_sub_cancel' (Nat.le_of_not_lt hhigh)]

/-- Settles O15: the outputs are the two functions of the inputs, which come back by R55. -/
theorem pairRoundTrip : Obligations.PairRoundTrip := fun s st hs =>
  ⟨_, _, exec_pack2x4 st s, exec_unpack2x4 _ _, unpack2x4_pack2x4_of_inRange hs⟩

/-- Settles O18: the bits masked away are not live (R49), and each half of the Block has its own Sample's bits. -/
theorem pairTruncatesEachSample : Obligations.PairTruncatesEachSample := by
  have htwice (v mask : Byte) : v &&& mask = v &&& mask &&& mask := by rw [BitVec.and_assoc, BitVec.and_self]
  refine fun s => ⟨?_, ?_, fun v j hj => ?_, fun v j hj => ?_⟩
  · exact exactlyLive_pack2x4.1 _ _ fun i => by fin_cases i <;> exact htwice _ _
  · exact (unpack2x4_pack2x4 s).trans (lanes_two_eq_iff.2 ⟨Vector.getElem_map .., Vector.getElem_map ..⟩)
  · rw [pack2x4_bit _ (by omega), pack2x4_bit _ (by omega), if_pos hj, if_pos hj]
    rfl
  · by_cases hj8 : j < 8
    · rw [pack2x4_bit _ hj8, pack2x4_bit _ hj8, if_neg (by omega), if_neg (by omega)]
      rfl
    · rw [BitVec.getLsbD_of_ge _ _ (by omega), BitVec.getLsbD_of_ge _ _ (by omega)]

/-! ### The gate-level form -/

theorem pack2x4_eq_gatePack2x4 (s : Lanes 2) : pack2x4 s = gatePack2x4 s := by
  refine lanes_ext fun i => byte_ext fun j hj => ?_
  fin_cases i
  refine (pack2x4_bit s hj).trans (.trans ?_ (byteOfWires_getLsbD (h := hj) ..).symm)
  interval_cases j <;> rfl

theorem unpack2x4_eq_gateUnpack2x4 (b : Lanes 1) : unpack2x4 b = gateUnpack2x4 b := by
  refine lanes_ext fun i => byte_ext fun j hj => ?_
  refine (unpack2x4_bit b i.isLt j).trans ?_
  fin_cases i
  · refine .trans ?_ (byteOfWires_getLsbD (h := hj) ..).symm
    interval_cases j <;> rfl
  · refine .trans ?_ (byteOfWires_getLsbD (h := hj) ..).symm
    interval_cases j <;> rfl

/-- Settles O25: pseudocode and wiring agree on every input. -/
theorem pairGateLevelForm : Obligations.PairGateLevelForm :=
  ⟨funext pack2x4_eq_gatePack2x4, funext unpack2x4_eq_gateUnpack2x4⟩

/-! ### Which Groups give a Block -/

/-- The Groups a Block is the image of: the low halves of their Samples are the halves of the Block. -/
theorem pack2x4_eq_iff {s : Lanes 2} {b : Lanes 1} :
    pack2x4 s = b ↔ s[0].toNat % 16 = b[0].toNat % 16 ∧ s[1].toNat % 16 = b[0].toNat / 16 := by
  have hmask (v : Byte) : (v &&& pairMaskLo).toNat = v.toNat % 16 := Nat.and_two_pow_sub_one_eq_mod _ 4
  have hshr (v : Byte) : (shr8 v 4).toNat = v.toNat / 16 := Nat.shiftRight_eq_div_pow _ 4
  have hinj : Function.Injective unpack2x4 := Function.LeftInverse.injective pack2x4_unpack2x4
  calc pack2x4 s = b
      ↔ s.map (· &&& pairMaskLo) = unpack2x4 b := by rw [← hinj.eq_iff, unpack2x4_pack2x4]
    _ ↔ s[0] &&& pairMaskLo = b[0] &&& pairMaskLo ∧ s[1] &&& pairMaskLo = shr8 b[0] 4 := by
        rw [lanes_two_eq_iff, Vector.getElem_map, Vector.getElem_map]
        rfl
    _ ↔ _ := by rw [← BitVec.toNat_inj, ← BitVec.toNat_inj, hmask, hmask, hmask, hshr]

/-- A Sample is its low half `r` with one of the sixteen values of the high half above it, and with only one. -/
theorem toNat_mod_eq_iff {v : Byte} {r : Nat} (hr : r < 16) :
    v.toNat % 16 = r ↔ ∃! h : Fin 16, v.toNat = 16 * h.val + r := by
  have hv := v.isLt
  refine ⟨fun hlow => ⟨⟨v.toNat / 16, by omega⟩, by dsimp only; omega, fun h hh => Fin.ext ?_⟩, fun ⟨h, hh, _⟩ => ?_⟩
  · dsimp only at hh ⊢
    omega
  · omega

/-- Two choices, each of the one value that meets its own condition, are one choice of a pair. -/
theorem existsUnique_and_iff {α β : Type} {p : α → Prop} {q : β → Prop} :
    ((∃! a, p a) ∧ ∃! b, q b) ↔ ∃! c : α × β, p c.1 ∧ q c.2 := by
  refine ⟨fun ⟨⟨a, ha, hua⟩, b, hb, hub⟩ => ⟨(a, b), ⟨ha, hb⟩, fun c hc => Prod.ext (hua _ hc.1) (hub _ hc.2)⟩, ?_⟩
  rintro ⟨⟨a, b⟩, ⟨ha, hb⟩, hu⟩
  exact ⟨⟨a, ha, fun a' ha' => congrArg Prod.fst (hu (a', b) ⟨ha', hb⟩)⟩,
    b, hb, fun b' hb' => congrArg Prod.snd (hu (a, b') ⟨ha, hb'⟩)⟩

/-- Settles O28: the bijection from the two round trips, two Groups that differ in an ignored bit, and each Sample's
high half chosen by itself. -/
theorem pairPackAfterUnpack : Obligations.PairPackAfterUnpack := by
  refine ⟨pack2x4_unpack2x4, codecBijective_of (x := #v[0x00, 0x00]) (y := #v[0x10, 0x00]) pack2x4_unpack2x4
    (fun _ => unpack2x4_pack2x4_of_inRange) unpack2x4_inRange (by decide) (by decide), fun b s => ?_⟩
  have hb := b[0].isLt
  rw [pack2x4_eq_iff, toNat_mod_eq_iff (by omega), toNat_mod_eq_iff (by omega)]
  exact existsUnique_and_iff

end Sys2Proof.Machine
end

section
/-! PROOFS. The Quad codec (`41_quad_codec.md`): the results of its two operations (R59, R60), what comes back of every
Group (R61 to R64), its wiring (R65) and its bijection (R66). What is said of a high and a low mask of any width serves
the Octet codec too. -/

namespace Sys2Proof.Machine

/-! ### A Block's high and low part, for any width -/

section
variable {k n : Nat} {hi lo : Byte}

/-- A value ORed into the bits from `k` up leaves those below as they are. -/
theorem HighMask.or_and_low (hhi : HighMask k hi) (hlo : LowMask k lo) (x y : Byte) :
    (x ||| (y &&& hi)) &&& lo = x &&& lo := by
  refine byte_ext fun j _ => ?_
  rw [hlo.and_bit, hlo.and_bit, BitVec.getLsbD_or, hhi.and_bit]
  by_cases hj : j < k
  · rw [decide_eq_false (Nat.not_le.2 hj), Bool.false_and, Bool.or_false]
  · rw [decide_eq_false hj, Bool.false_and, Bool.false_and]

/-- The bits from `k` up, shifted right by `n`, are the shift down to bit 0 moved back up to bit `k - n`. -/
theorem HighMask.shr8_and (h : HighMask k hi) (hn : n ≤ k) (v : Byte) :
    shr8 (v &&& hi) n = shl8 (shr8 v k) (k - n) := by
  refine byte_ext fun j hj => ?_
  rw [h.shr8_and_bit, shl8_getLsbD, shr8_getLsbD, decide_eq_true hj, Bool.true_and]
  by_cases hjk : k ≤ n + j
  · rw [decide_eq_true hjk, decide_eq_false (by omega), show k + (j - (k - n)) = n + j by omega]
    rfl
  · rw [decide_eq_false hjk, decide_eq_true (by omega)]
    rfl

end

/-- What the left shift of pack and the right shift of unpack leave of a value: the bits that stood under the mask. -/
theorem shr8_shl8_and (v mask : Byte) (n : Nat) : shr8 (shl8 v n &&& mask) n = v &&& shr8 mask n := by
  refine byte_ext fun j hj => ?_
  rw [shr8_getLsbD, BitVec.getLsbD_and, BitVec.getLsbD_and, shl8_getLsbD, shr8_getLsbD, Nat.add_sub_cancel_left,
    decide_eq_false (by omega : ¬ n + j < n)]
  by_cases hj8 : n + j < 8
  · rw [decide_eq_true hj8]
    rfl
  · rw [BitVec.getLsbD_of_ge mask _ (Nat.le_of_not_lt hj8), Bool.and_false, Bool.and_false]

/-- A value in range has nothing to show above its `k` bits (R87). -/
theorem shr8_of_inRange {k : Nat} {v : Byte} (h : InRange k v) : shr8 v k = 0 :=
  byte_ext fun j _ =>
    (shr8_getLsbD v k j).trans ((getLsbD_of_inRange h (Nat.le_add_right k j)).trans BitVec.getLsbD_zero.symm)

/-! ### The two operations -/

theorem lanes_four_eq_iff {x y : Lanes 4} : x = y ↔ x[0] = y[0] ∧ ∀ i : Fin 3, x[i.val + 1] = y[i.val + 1] := by
  refine ⟨fun h => h ▸ ⟨rfl, fun _ => rfl⟩, fun ⟨h0, hsucc⟩ => Vector.ext fun j hj => ?_⟩
  match j, hj with
  | 0, _ => exact h0
  | i + 1, _ => exact hsucc ⟨i, by omega⟩

/-- Settles O3: the operation's `exec_` law, with the bits of `pack4x6_bit`; in range the high pair is sample0's. -/
theorem pack4x6Result : Obligations.Pack4x6Result := fun s st =>
  ⟨_, exec_pack4x6 st s, rfl, fun i => by
    have h7 : 7 - quadShift i.val = 5 - 2 * i.val := by simp only [quadShift]; omega
    have h6 : 6 - quadShift i.val = 4 - 2 * i.val := by simp only [quadShift]; omega
    refine ⟨pack4x6_lane s i i.isLt, fun j hj => ?_, ?_, ?_, fun hs => ⟨?_, ?_⟩⟩
    · refine (pack4x6_bit s i.isLt (by omega)).trans ?_
      rw [decide_eq_false (by omega), Bool.false_and, Bool.or_false]
    · exact h7 ▸ pack4x6_bit s i.isLt (j := 7) (by omega)
    · exact h6 ▸ pack4x6_bit s i.isLt (j := 6) (by omega)
    · exact h7 ▸ pack4x6_high_bit hs i (j := 7) (by omega) (by omega)
    · exact h6 ▸ pack4x6_high_bit hs i (j := 6) (by omega) (by omega)⟩

/-- The top two bits of an unpacked sample0 are tied to 0 (R60). -/
theorem unpack4x6_lane0_high_bit (b : Lanes 3) {j : Nat} (hj : 6 ≤ j) : (unpack4x6 b)[0].getLsbD j = false := by
  by_cases hj8 : j < 8
  · rw [unpack4x6_lane0_wires, byteOfWires_getLsbD (h := hj8)]
    interval_cases j <;> rfl
  · exact BitVec.getLsbD_of_ge _ _ (Nat.le_of_not_lt hj8)

/-- Unpacked Samples are in range, whatever the Blocks (R78). -/
theorem unpack4x6_inRange (b : Lanes 3) : GroupInRange 6 (unpack4x6 b) := fun i =>
  inRange_iff_high_bits_zero.2 fun j hj => by
    match i with
    | ⟨0, _⟩ => exact unpack4x6_lane0_high_bit b hj
    | ⟨i + 1, _⟩ =>
      refine (unpack4x6_succ_bit b (by omega)).trans ?_
      rw [decide_eq_false (Nat.not_lt.2 hj), Bool.false_and]

/-- Settles O4: the operation's `exec_` law; sample0 is its six wires, and the other Samples are low parts, in range. -/
theorem unpack4x6Result : Obligations.Unpack4x6Result := fun b st =>
  ⟨_, exec_unpack4x6 st b, rfl, unpack4x6_lane0 b, unpack4x6_lane0_wires b, fun i =>
    have hhigh {j : Nat} (hj : 6 ≤ j) : (unpack4x6 b)[i.val + 1].getLsbD j = false :=
      getLsbD_of_inRange (unpack4x6_inRange b ⟨i.val + 1, by omega⟩) hj
    ⟨unpack4x6_lane_succ b i i.isLt, fun j hj => by
      refine (unpack4x6_succ_bit b i.isLt).trans ?_
      rw [decide_eq_true hj]
      rfl, hhigh (by omega), hhigh (by omega)⟩⟩

/-! ### Unpack after pack -/

/-- R62: the low six bits of a Block are those of its own Sample. -/
theorem pack4x6_low_part (s : Lanes 4) (i : Nat) (h : i < 3) :
    (pack4x6 s)[i] &&& quadMaskLo = s[i + 1] &&& quadMaskLo := by
  rw [pack4x6_lane s i h, highMask_quad.or_and_low lowMask_quad]

/-- The term of sample0 that unpack takes from a packed Block: the two bits of `s[0]` the Block carries, with the high
pair of `s[i+1]` ORed into them. -/
theorem pack4x6_sample0_term (s : Lanes 4) (i : Nat) (h : i < 3) :
    shr8 ((pack4x6 s)[i] &&& quadMaskHi) (quadShift i) =
      (s[0] &&& shr8 quadMaskHi (quadShift i)) ||| shl8 (shr8 s[i + 1] 6) (6 - quadShift i) := by
  have hshift : quadShift i ≤ 6 := by simp only [quadShift]; omega
  rw [pack4x6_lane s i h, or_and_mask, shr8_or, highMask_quad.shr8_and hshift, BitVec.and_assoc, BitVec.and_self,
    shr8_shl8_and, BitVec.or_comm]

/-- The three pairs of sample0 that the Blocks carry are its low six bits. -/
theorem quad_pairs_cover (v : Byte) : (v &&& 0x30) ||| (v &&& 0x0C) ||| (v &&& 0x03) = v &&& 0x3F := by
  rw [← BitVec.and_or_distrib_left, ← BitVec.and_or_distrib_left]
  rfl

/-- R64 on sample0: its low six bits, each pair with the high pair of one other Sample ORed in. -/
theorem unpack4x6_pack4x6_lane0 (s : Lanes 4) : (unpack4x6 (pack4x6 s))[0] =
    (s[0] &&& (0x3F : Byte)) ||| shl8 (shr8 s[1] 6) 4 ||| shl8 (shr8 s[2] 6) 2 ||| shr8 s[3] 6 := by
  have hterm (i : Fin 3) := pack4x6_sample0_term s i i.isLt
  calc (unpack4x6 (pack4x6 s))[0]
      = ((s[0] &&& (0x30 : Byte)) ||| shl8 (shr8 s[1] 6) 4) ||| ((s[0] &&& (0x0C : Byte)) ||| shl8 (shr8 s[2] 6) 2)
          ||| ((s[0] &&& (0x03 : Byte)) ||| shl8 (shr8 s[3] 6) 0) :=
        congrArg₂ (· ||| ·) (congrArg₂ (· ||| ·) (hterm 0) (hterm 1)) (hterm 2)
    _ = ((s[0] &&& (0x30 : Byte)) ||| (s[0] &&& (0x0C : Byte)) ||| (s[0] &&& (0x03 : Byte)))
          ||| shl8 (shr8 s[1] 6) 4 ||| shl8 (shr8 s[2] 6) 2 ||| shl8 (shr8 s[3] 6) 0 := by ac_rfl
    _ = _ := by rw [quad_pairs_cover, show shl8 (shr8 s[3] 6) 0 = shr8 s[3] 6 from BitVec.shiftLeft_zero _]

/-- R64 on the other Samples: their low six bits. -/
theorem unpack4x6_pack4x6_lane_succ (s : Lanes 4) (i : Nat) (h : i < 3) :
    (unpack4x6 (pack4x6 s))[i + 1] = s[i + 1] &&& quadMaskLo := by
  rw [unpack4x6_lane_succ _ i h, pack4x6_low_part s i h]

/-- Settles O23: lane 0 and the lanes above it. -/
theorem quadUnpackAfterPack : Obligations.QuadUnpackAfterPack := fun s =>
  lanes_four_eq_iff.2 ⟨unpack4x6_pack4x6_lane0 s, fun i =>
    (unpack4x6_pack4x6_lane_succ s i i.isLt).trans (by fin_cases i <;> rfl)⟩

/-- R63: with `s[1]` to `s[3]` in range nothing is ORed into sample0, which comes back truncated. -/
theorem unpack4x6_pack4x6_of_succ_inRange {s : Lanes 4} (hs : ∀ i : Fin 3, InRange 6 s[i.val + 1]) :
    unpack4x6 (pack4x6 s) = s.set 0 (s[0] &&& quadMaskLo) := by
  have hshl (n : Nat) : shl8 0 n = 0 := BitVec.zero_shiftLeft n
  have h1 : shr8 s[1] 6 = 0 := shr8_of_inRange (hs 0)
  have h2 : shr8 s[2] 6 = 0 := shr8_of_inRange (hs 1)
  have h3 : shr8 s[3] 6 = 0 := shr8_of_inRange (hs 2)
  refine lanes_four_eq_iff.2 ⟨?_, fun i => ?_⟩
  · rw [unpack4x6_pack4x6_lane0, h1, h2, h3, hshl, hshl, Vector.getElem_set_self]
    exact BitVec.or_zero.trans (BitVec.or_zero.trans BitVec.or_zero)
  · rw [unpack4x6_pack4x6_lane_succ s i i.isLt, lowMask_quad.and_of_inRange (hs i),
      Vector.getElem_set_ne (by omega) (by omega) (by omega)]

/-- R61: a Group in range comes back whole. -/
theorem unpack4x6_pack4x6_of_inRange {s : Lanes 4} (hs : GroupInRange 6 s) : unpack4x6 (pack4x6 s) = s := by
  rw [unpack4x6_pack4x6_of_succ_inRange fun i => hs ⟨i.val + 1, by omega⟩,
    lowMask_quad.and_of_inRange (v := s[0]) (hs 0)]
  exact Vector.set_getElem_self ..

/-- Settles O16: the outputs are the two functions of the inputs, which come back by R61. -/
theorem quadRoundTrip : Obligations.QuadRoundTrip := fun s st hs =>
  ⟨_, _, exec_pack4x6 st s, exec_unpack4x6 _ _, unpack4x6_pack4x6_of_inRange hs⟩

/-- Settles O21: the bits masked away are not live (R49), and with the others in range R63 gives what comes back. -/
theorem quadSample0Truncated : Obligations.QuadSample0Truncated := by
  have htwice (v mask : Byte) : v &&& mask = v &&& mask &&& mask := by rw [BitVec.and_assoc, BitVec.and_self]
  refine fun s => ⟨exactlyLive_pack4x6.1 _ _ fun i => ?_, unpack4x6_pack4x6_of_succ_inRange⟩
  match i with
  | ⟨0, _⟩ => exact (htwice s[0] 0x3F).trans (congrArg (· &&& _) (Vector.getElem_set_self (by omega)).symm)
  | ⟨i + 1, hi⟩ => exact congrArg (· &&& _) (Vector.getElem_set_ne (by omega) hi (by omega)).symm

/-! ### Out-of-range Samples -/

/-- R62: a Block is the Block of the Samples masked to six bits with its own Sample's high pair ORed in. -/
theorem pack4x6_lane_masked_or {s x : Lanes 4} (i : Nat) (h : i < 3) (h0 : x[0] = s[0])
    (hsucc : x[i + 1] = s[i + 1] &&& quadMaskLo) :
    (pack4x6 s)[i] = (pack4x6 x)[i] ||| (s[i + 1] &&& quadMaskHi) := by
  rw [pack4x6_lane s i h, pack4x6_lane x i h, h0, hsucc]
  conv_lhs => rw [← quad_masks_cover s[i + 1]]
  ac_rfl

/-- Settles O19: the high pairs are ORed in (`pack4x6_lane_masked_or`), the low parts are the Samples' own; the Group of
the rule's example is one that masking changes. -/
theorem quadHighBitsOverlapSample0 : Obligations.QuadHighBitsOverlapSample0 :=
  ⟨fun s i => ⟨pack4x6_lane_masked_or i i.isLt rfl (by fin_cases i <;> rfl), pack4x6_low_part s i i.isLt,
      unpack4x6_pack4x6_lane_succ s i i.isLt⟩,
    ⟨#v[0x27, 0x5A, 0x3E, 0x11], by decide⟩, by decide, by decide, by decide⟩

/-! ### The gate-level form -/

theorem gatePack4x6_lane (s : Lanes 4) (i : Nat) (h : i < 3) : (gatePack4x6 s)[i] = gateQuadBlock s[0] s[i + 1] i := by
  match i, h with
  | 0, _ => rfl
  | 1, _ => rfl
  | 2, _ => rfl

theorem gateUnpack4x6_lane_succ (b : Lanes 3) (i : Nat) (h : i < 3) : (gateUnpack4x6 b)[i + 1] = gateLowSix b[i] := by
  match i, h with
  | 0, _ => rfl
  | 1, _ => rfl
  | 2, _ => rfl

/-- Six wires with two tied above them are the low six bits. -/
theorem gateLowSix_eq (v : Byte) : gateLowSix v = v &&& quadMaskLo := by
  refine byte_ext fun j hj => ?_
  rw [lowMask_quad.and_bit, gateLowSix, byteOfWires_getLsbD (h := hj)]
  interval_cases j <;> rfl

theorem pack4x6_eq_gatePack4x6 (s : Lanes 4) : pack4x6 s = gatePack4x6 s := by
  refine Vector.ext fun i hi => byte_ext fun j hj => ?_
  rw [pack4x6_bit s hi hj, gatePack4x6_lane s i hi, gateQuadBlock, byteOfWires_getLsbD (h := hj)]
  have h6 : 6 - quadShift i = 4 - 2 * i := by simp only [quadShift]; omega
  have h7 : 7 - quadShift i = 5 - 2 * i := by simp only [quadShift]; omega
  obtain hlow | rfl | rfl : j < 6 ∨ j = 6 ∨ j = 7 := by omega
  · interval_cases j <;> exact Bool.or_false _
  · rw [h6]
    rfl
  · rw [h7]
    rfl

theorem unpack4x6_eq_gateUnpack4x6 (b : Lanes 3) : unpack4x6 b = gateUnpack4x6 b :=
  lanes_four_eq_iff.2 ⟨unpack4x6_lane0_wires b, fun i => by
    rw [unpack4x6_lane_succ b i i.isLt, gateUnpack4x6_lane_succ b i i.isLt, gateLowSix_eq]⟩

/-- Settles O26: pseudocode and gates agree on every input. -/
theorem quadGateLevelForm : Obligations.QuadGateLevelForm :=
  ⟨funext pack4x6_eq_gatePack4x6, funext unpack4x6_eq_gateUnpack4x6⟩

/-! ### Pack after unpack -/

/-- The pair of sample0 that pack puts into a Block is the pair that unpack has taken from it (R44). -/
theorem unpack4x6_sample0_pair (b : Lanes 3) (i : Fin 3) :
    shl8 (unpack4x6 b)[0] (quadShift i.val) &&& quadMaskHi = b[i] &&& quadMaskHi := by
  obtain ⟨h6, h7⟩ := unpack4x6_lane0_bits b i
  have hshift : quadShift i.val ≤ 6 := by simp only [quadShift]; omega
  refine byte_ext fun j hj => ?_
  rw [highMask_quad.shl8_and_bit _ hshift hj, highMask_quad.and_bit]
  by_cases hhigh : 6 ≤ j
  · congr 1
    obtain rfl | rfl : j = 6 ∨ j = 7 := by omega
    · exact (congrArg _ (by simp only [quadShift]; omega)).trans h6
    · exact (congrArg _ (by simp only [quadShift]; omega)).trans h7
  · rw [decide_eq_false hhigh, Bool.false_and, Bool.false_and]

/-- R66: the low part of a Block and its pair of sample0, put together, are the Block. -/
theorem pack4x6_unpack4x6 (b : Lanes 3) : pack4x6 (unpack4x6 b) = b := by
  refine Vector.ext fun i hi => ?_
  rw [pack4x6_lane _ i hi, unpack4x6_lane_succ b i hi, unpack4x6_sample0_pair b ⟨i, hi⟩, BitVec.or_comm]
  exact quad_masks_cover b[i]

/-- Settles O29: the bijection from the two round trips, and two Groups that differ in an ignored bit of `s[0]`. -/
theorem quadPackAfterUnpack : Obligations.QuadPackAfterUnpack :=
  ⟨pack4x6_unpack4x6, codecBijective_of (x := #v[0x00, 0x00, 0x00, 0x00]) (y := #v[0x40, 0x00, 0x00, 0x00])
    pack4x6_unpack4x6 (fun _ => unpack4x6_pack4x6_of_inRange) unpack4x6_inRange (by decide) (by decide)⟩

end Sys2Proof.Machine
end

section
/-! PROOFS. The Octet codec (`42_octet_codec.md`): the results of its two operations (R67, R68), what comes back of every
Group (R69 to R72), its wiring (R73) and its bijection (R74). -/

namespace Sys2Proof.Machine

/-- A port of lanes is its lane 0 and the lanes above it. -/
theorem lanes_succ_eq_iff {n : Nat} {x y : Lanes (n + 1)} :
    x = y ↔ x[0] = y[0] ∧ ∀ i : Fin n, x[i.val + 1] = y[i.val + 1] := by
  refine ⟨fun h => h ▸ ⟨rfl, fun _ => rfl⟩, fun ⟨h0, hsucc⟩ => Vector.ext fun j hj => ?_⟩
  match j, hj with
  | 0, _ => exact h0
  | i + 1, _ => exact hsucc ⟨i, by omega⟩

/-! ### The two operations -/

/-- Bit `6 - i` of sample0 is the one that the shift of Block `i` puts into bit 7 (R45). -/
theorem seven_sub_octetShift (i : Nat) : 7 - octetShift i = 6 - i := by simp only [octetShift]; omega

/-- R67: below bit 7 a Block is its own Sample. -/
theorem pack8x7_low_bit (s : Lanes 8) {i j : Nat} (hi : i < 7) (hj : j < 7) :
    (pack8x7 s)[i].getLsbD j = s[i + 1].getLsbD j := by
  rw [pack8x7_bit s hi (by omega), decide_eq_false (by omega), Bool.false_and, Bool.or_false]

/-- R67: bit 7 of a Block is its own Sample's, ORed with one bit of sample0. -/
theorem pack8x7_bit7 (s : Lanes 8) {i : Nat} (hi : i < 7) :
    (pack8x7 s)[i].getLsbD 7 = (s[i + 1].getLsbD 7 || s[0].getLsbD (6 - i)) := by
  rw [pack8x7_bit s hi (by omega), seven_sub_octetShift, decide_eq_true le_rfl, Bool.true_and]

/-- Settles O5: the operation's `exec_` law, with the Block's bits; in range bit 7 is sample0's. -/
theorem pack8x7Result : Obligations.Pack8x7Result := fun s st =>
  ⟨_, exec_pack8x7 st s, rfl, fun i =>
    ⟨pack8x7_lane s i i.isLt, fun _ => pack8x7_low_bit s i.isLt, pack8x7_bit7 s i.isLt,
      fun hs => seven_sub_octetShift i ▸ pack8x7_high_bit hs i⟩⟩

/-- Bit 7 of an unpacked sample0 is tied to 0 (R68). -/
theorem unpack8x7_lane0_bit7 (b : Lanes 7) : (unpack8x7 b)[0].getLsbD 7 = false := by
  rw [unpack8x7_lane0_wires, byteOfWires_getLsbD (h := by omega)]
  rfl

/-- Below bit 7 each other Sample is its Block (R68). -/
theorem unpack8x7_succ_low_bit (b : Lanes 7) {i j : Nat} (hi : i < 7) (hj : j < 7) :
    (unpack8x7 b)[i + 1].getLsbD j = b[i].getLsbD j := by
  rw [unpack8x7_succ_bit b hi, decide_eq_true hj, Bool.true_and]

/-- Bit 7 of the other unpacked Samples is tied to 0 (R68). -/
theorem unpack8x7_succ_bit7 (b : Lanes 7) {i : Nat} (hi : i < 7) : (unpack8x7 b)[i + 1].getLsbD 7 = false :=
  unpack8x7_succ_bit b hi

/-- A value is within seven bits once bit 7, the only one above, is 0. -/
theorem inRange_seven_of_bit7 {v : Byte} (h : v.getLsbD 7 = false) : InRange 7 v :=
  inRange_iff_high_bits_zero.2 fun j hj => by
    obtain rfl | hj8 : j = 7 ∨ 8 ≤ j := by omega
    · exact h
    · exact BitVec.getLsbD_of_ge _ _ hj8

/-- Unpacked Samples are in range, whatever the Blocks (R78). -/
theorem unpack8x7_inRange (b : Lanes 7) : GroupInRange 7 (unpack8x7 b)
  | ⟨0, _⟩ => inRange_seven_of_bit7 (unpack8x7_lane0_bit7 b)
  | ⟨_ + 1, _⟩ => inRange_seven_of_bit7 (unpack8x7_succ_bit7 b (by omega))

/-- Settles O6: the operation's `exec_` law; sample0 is its seven wires, and the other Samples are low parts. -/
theorem unpack8x7Result : Obligations.Unpack8x7Result := fun b st =>
  ⟨_, exec_unpack8x7 st b, rfl, unpack8x7_lane0 b, unpack8x7_lane0_wires b, fun i =>
    ⟨unpack8x7_lane_succ b i i.isLt, fun _ => unpack8x7_succ_low_bit b i.isLt, unpack8x7_succ_bit7 b i.isLt⟩⟩

/-! ### Unpack after pack -/

/-- R70: the low seven bits of a Block are those of its own Sample. -/
theorem pack8x7_low_part (s : Lanes 8) (i : Nat) (h : i < 7) :
    (pack8x7 s)[i] &&& octetMaskLo = s[i + 1] &&& octetMaskLo := by
  rw [pack8x7_lane s i h, highMask_octet.or_and_low lowMask_octet]

/-- R72 on the other Samples: their low seven bits. -/
theorem unpack8x7_pack8x7_lane_succ (s : Lanes 8) (i : Nat) (h : i < 7) :
    (unpack8x7 (pack8x7 s))[i + 1] = s[i + 1] &&& octetMaskLo := by
  rw [unpack8x7_lane_succ _ i h, pack8x7_low_part s i h]

/-- R72 on sample0: into each of its seven bits bit 7 of one other Sample is ORed. -/
theorem unpack8x7_pack8x7_lane0_bit (s : Lanes 8) (i : Fin 7) : (unpack8x7 (pack8x7 s))[0].getLsbD (6 - i.val) =
    (s[0].getLsbD (6 - i.val) || s[i.val + 1].getLsbD 7) :=
  calc (unpack8x7 (pack8x7 s))[0].getLsbD (6 - i.val)
      = (pack8x7 s)[i].getLsbD 7 := unpack8x7_lane0_bit _ i
    _ = (s[i.val + 1].getLsbD 7 || s[0].getLsbD (6 - i.val)) := pack8x7_bit7 s i.isLt
    _ = _ := Bool.or_comm ..

/-- Settles O24: sample0 bit by bit and the lanes above it. -/
theorem octetUnpackAfterPack : Obligations.OctetUnpackAfterPack := fun s i =>
  ⟨unpack8x7_pack8x7_lane0_bit s i, unpack8x7_lane0_bit7 _, unpack8x7_pack8x7_lane_succ s i i.isLt⟩

/-- R71: with `s[1]` to `s[7]` in range nothing is ORed into sample0, whose low seven bits come back. -/
theorem unpack8x7_pack8x7_lane0_of_succ_inRange {s : Lanes 8} (hs : ∀ i : Fin 7, InRange 7 s[i.val + 1]) :
    (unpack8x7 (pack8x7 s))[0] = s[0] &&& octetMaskLo := by
  refine byte_ext fun j hj => ?_
  rw [lowMask_octet.and_bit]
  obtain hlow | rfl : j < 7 ∨ j = 7 := by omega
  · obtain ⟨i, rfl⟩ : ∃ i : Fin 7, j = 6 - i.val := ⟨⟨6 - j, by omega⟩, by dsimp only; omega⟩
    rw [unpack8x7_pack8x7_lane0_bit, getLsbD_of_inRange (hs i) le_rfl, Bool.or_false, decide_eq_true hlow,
      Bool.true_and]
  · exact unpack8x7_lane0_bit7 _

/-- R71: with `s[1]` to `s[7]` in range the Group comes back with sample0 truncated. -/
theorem unpack8x7_pack8x7_of_succ_inRange {s : Lanes 8} (hs : ∀ i : Fin 7, InRange 7 s[i.val + 1]) :
    unpack8x7 (pack8x7 s) = s.set 0 (s[0] &&& octetMaskLo) := by
  refine lanes_succ_eq_iff.2 ⟨?_, fun i => ?_⟩
  · rw [unpack8x7_pack8x7_lane0_of_succ_inRange hs, Vector.getElem_set_self]
  · rw [unpack8x7_pack8x7_lane_succ s i i.isLt, lowMask_octet.and_of_inRange (hs i),
      Vector.getElem_set_ne (by omega) (by omega) (by omega)]

/-- R69: a Group in range comes back whole. -/
theorem unpack8x7_pack8x7_of_inRange {s : Lanes 8} (hs : GroupInRange 7 s) : unpack8x7 (pack8x7 s) = s := by
  rw [unpack8x7_pack8x7_of_succ_inRange fun i => hs ⟨i.val + 1, by omega⟩,
    lowMask_octet.and_of_inRange (v := s[0]) (hs 0)]
  exact Vector.set_getElem_self ..

/-- Settles O17: the outputs are the two functions of the inputs, which come back by R69. -/
theorem octetRoundTrip : Obligations.OctetRoundTrip := fun s st hs =>
  ⟨_, _, exec_pack8x7 st s, exec_unpack8x7 _ _, unpack8x7_pack8x7_of_inRange hs⟩

/-- R71: a left shift by 1 or more loses bit 7 of sample0, so no Block has it. -/
theorem pack8x7_set_sample0_masked (s : Lanes 8) : pack8x7 (s.set 0 (s[0] &&& octetMaskLo)) = pack8x7 s := by
  refine Vector.ext fun i hi => ?_
  rw [pack8x7_lane _ i hi, pack8x7_lane s i hi, Vector.getElem_set_self, Vector.getElem_set_ne _ _ (by omega),
    lowMask_octet.shl8_masked _ (by simp only [octetShift]; omega)]

/-- Settles O22: bit 7 of sample0 is lost in every shift, and with the others in range R71 gives what comes back. -/
theorem octetSample0Truncated : Obligations.OctetSample0Truncated := fun s =>
  ⟨(pack8x7_set_sample0_masked s).symm, unpack8x7_pack8x7_of_succ_inRange⟩

/-! ### Out-of-range Samples -/

/-- R70: a Block is the Block of the Samples masked to seven bits with its own Sample's bit 7 ORed in. -/
theorem pack8x7_lane_masked_or {s x : Lanes 8} (i : Nat) (h : i < 7) (h0 : x[0] = s[0])
    (hsucc : x[i + 1] = s[i + 1] &&& octetMaskLo) :
    (pack8x7 s)[i] = (pack8x7 x)[i] ||| (s[i + 1] &&& octetMaskHi) := by
  rw [pack8x7_lane s i h, pack8x7_lane x i h, h0, hsucc]
  conv_lhs => rw [← octet_masks_cover s[i + 1]]
  ac_rfl

/-- Settles O20: bits 7 are ORed in (`pack8x7_lane_masked_or`), the low parts are the Samples' own; the Group of the
rule's example is one that masking changes. -/
theorem octetHighBitOverlapsSample0 : Obligations.OctetHighBitOverlapsSample0 :=
  ⟨fun s i => ⟨pack8x7_lane_masked_or i i.isLt rfl (by fin_cases i <;> rfl), pack8x7_low_part s i i.isLt,
      unpack8x7_pack8x7_lane_succ s i i.isLt⟩,
    ⟨#v[0x12, 0xA5, 0x36, 0x49, 0x5A, 0x6C, 0x7E, 0x1F], by decide⟩,
    by decide, by decide, by decide, by decide, by decide⟩

/-! ### The gate-level form -/

theorem gatePack8x7_lane (s : Lanes 8) (i : Nat) (h : i < 7) :
    (gatePack8x7 s)[i] = gateOctetBlock s[0] s[i + 1] i := by
  match i, h with
  | 0, _ => rfl
  | 1, _ => rfl
  | 2, _ => rfl
  | 3, _ => rfl
  | 4, _ => rfl
  | 5, _ => rfl
  | 6, _ => rfl

theorem gateUnpack8x7_lane_succ (b : Lanes 7) (i : Nat) (h : i < 7) :
    (gateUnpack8x7 b)[i + 1] = gateLowSeven b[i] := by
  match i, h with
  | 0, _ => rfl
  | 1, _ => rfl
  | 2, _ => rfl
  | 3, _ => rfl
  | 4, _ => rfl
  | 5, _ => rfl
  | 6, _ => rfl

/-- Seven wires with one tied above them are the low seven bits. -/
theorem gateLowSeven_eq (v : Byte) : gateLowSeven v = v &&& octetMaskLo := by
  refine byte_ext fun j hj => ?_
  rw [lowMask_octet.and_bit, gateLowSeven, byteOfWires_getLsbD (h := hj)]
  interval_cases j <;> rfl

theorem pack8x7_eq_gatePack8x7 (s : Lanes 8) : pack8x7 s = gatePack8x7 s := by
  refine Vector.ext fun i hi => byte_ext fun j hj => ?_
  rw [gatePack8x7_lane s i hi, gateOctetBlock, byteOfWires_getLsbD (h := hj)]
  obtain hlow | rfl : j < 7 ∨ j = 7 := by omega
  · rw [pack8x7_low_bit s hi hlow]
    interval_cases j <;> rfl
  · exact pack8x7_bit7 s hi

theorem unpack8x7_eq_gateUnpack8x7 (b : Lanes 7) : unpack8x7 b = gateUnpack8x7 b :=
  lanes_succ_eq_iff.2 ⟨unpack8x7_lane0_wires b, fun i => by
    rw [unpack8x7_lane_succ b i i.isLt, gateUnpack8x7_lane_succ b i i.isLt, gateLowSeven_eq]⟩

/-- Settles O27: pseudocode and gates agree on every input. -/
theorem octetGateLevelForm : Obligations.OctetGateLevelForm :=
  ⟨funext pack8x7_eq_gatePack8x7, funext unpack8x7_eq_gateUnpack8x7⟩

/-! ### Pack after unpack -/

/-- R74: a Block's low bits come back from its own Sample and its bit 7 from sample0, where nothing else is ORed in. -/
theorem pack8x7_unpack8x7 (b : Lanes 7) : pack8x7 (unpack8x7 b) = b := by
  refine Vector.ext fun i hi => byte_ext fun j hj => ?_
  obtain hlow | rfl : j < 7 ∨ j = 7 := by omega
  · rw [pack8x7_low_bit _ hi hlow, unpack8x7_succ_low_bit b hi hlow]
  · rw [pack8x7_bit7 _ hi, unpack8x7_succ_bit7 b hi, Bool.false_or]
    exact unpack8x7_lane0_bit b ⟨i, hi⟩

/-- Settles O30: the bijection from the two round trips, and two Groups that differ in the ignored bit of `s[0]`. -/
theorem octetPackAfterUnpack : Obligations.OctetPackAfterUnpack :=
  ⟨pack8x7_unpack8x7, codecBijective_of (x := #v[0x00, 0x00, 0x00, 0x00, 0x00, 0x00, 0x00, 0x00])
    (y := #v[0x80, 0x00, 0x00, 0x00, 0x00, 0x00, 0x00, 0x00])
    pack8x7_unpack8x7 (fun _ => unpack8x7_pack8x7_of_inRange) unpack8x7_inRange (by decide) (by decide)⟩

end Sys2Proof.Machine
end

section
/-! PROOFS. The common laws (`43_common_laws.md`): one pattern for the Quad and Octet codecs (R75), what every
evaluation shows and leaves alone (R76 to R78), the primitives (R80, R81), which lanes reach which (R83) and the values
in range (R87). -/

namespace Sys2Proof.Machine

/-! ### One pattern for the Quad and Octet codecs -/

theorem patternPack_lane {m : Nat} (g : Nat) (hi : Byte) (s : Lanes (m + 1)) (i : Nat) (h : i < m) :
    (patternPack g hi s)[i] = s[i + 1] ||| (shl8 s[0] (g * (i + 1)) &&& hi) :=
  Vector.getElem_ofFn h

theorem patternUnpack_lane0 {m : Nat} (g : Nat) (hi lo : Byte) (b : Lanes m) :
    (patternUnpack g hi lo b)[0] = patternSample0 g hi b :=
  Vector.getElem_ofFn (Nat.succ_pos m)

theorem patternUnpack_lane_succ {m : Nat} (g : Nat) (hi lo : Byte) (b : Lanes m) (i : Nat) (h : i < m) :
    (patternUnpack g hi lo b)[i + 1] = b[i] &&& lo :=
  Vector.getElem_ofFn (Nat.succ_lt_succ h)

theorem unpack4x6_lane0_eq_patternSample0 (b : Lanes 3) : (unpack4x6 b)[0] = patternSample0 2 0xC0 b := by
  simp [patternSample0, List.finRange_succ]

/-- The shifts of R45 are those of the pattern with `g = 1`. -/
theorem unpack8x7_lane0_eq_patternSample0 (b : Lanes 7) : (unpack8x7 b)[0] = patternSample0 1 0x80 b := by
  simpa only [patternSample0, Nat.one_mul] using (octetSample0Assembly.2 b).1

theorem pack4x6_eq_patternPack (s : Lanes 4) : pack4x6 s = patternPack 2 0xC0 s :=
  Vector.ext fun i hi => (pack4x6_lane s i hi).trans (patternPack_lane 2 0xC0 s i hi).symm

theorem pack8x7_eq_patternPack (s : Lanes 8) : pack8x7 s = patternPack 1 0x80 s :=
  Vector.ext fun i hi => by
    rw [pack8x7_lane s i hi, patternPack_lane 1 0x80 s i hi, Nat.one_mul]
    rfl

theorem unpack4x6_eq_patternUnpack (b : Lanes 3) : unpack4x6 b = patternUnpack 2 0xC0 0x3F b :=
  lanes_succ_eq_iff.2 ⟨(unpack4x6_lane0_eq_patternSample0 b).trans (patternUnpack_lane0 ..).symm, fun i =>
    (unpack4x6_lane_succ b i i.isLt).trans (patternUnpack_lane_succ 2 0xC0 0x3F b i i.isLt).symm⟩

theorem unpack8x7_eq_patternUnpack (b : Lanes 7) : unpack8x7 b = patternUnpack 1 0x80 0x7F b :=
  lanes_succ_eq_iff.2 ⟨(unpack8x7_lane0_eq_patternSample0 b).trans (patternUnpack_lane0 ..).symm, fun i =>
    (unpack8x7_lane_succ b i i.isLt).trans (patternUnpack_lane_succ 1 0x80 0x7F b i i.isLt).symm⟩

/-- Settles O31: the four functions lane by lane, each lane the pattern's at the parameters of R75. -/
theorem quadAndOctetShareOnePattern : Obligations.QuadAndOctetShareOnePattern :=
  ⟨pack4x6_eq_patternPack, unpack4x6_eq_patternUnpack, pack8x7_eq_patternPack, unpack8x7_eq_patternUnpack⟩

/-! ### What every evaluation shows and leaves alone -/

section
variable {i : Instr} {st t : State}

/-- The inversion of `exec` on the ports: its own module's are updated, the others' are held. -/
theorem shown_of_exec (h : exec i st = .next t) :
    t.shown = Function.update st.shown i.module (i.inputs, i.outputs) := by
  obtain ⟨t', hexec, hshown⟩ := exec_shown i st
  cases hexec.symm.trans h
  exact hshown

/-- The evaluated module's ports show the inputs and the function of them (R76). -/
theorem shown_module_of_exec (h : exec i st = .next t) : t.shown i.module = (i.inputs, i.outputs) := by
  rw [shown_of_exec h, Function.update_self]

theorem inputs_of_exec (h : exec i st = .next t) : t.inputs i.module = i.inputs :=
  congrArg Prod.fst (shown_module_of_exec h)

theorem outputs_of_exec (h : exec i st = .next t) : t.outputs i.module = i.outputs :=
  congrArg Prod.snd (shown_module_of_exec h)

/-- The ports of another module are held (log 9). -/
theorem shown_of_exec_of_ne (h : exec i st = .next t) {m : Module} (hm : m ≠ i.module) : t.shown m = st.shown m := by
  rw [shown_of_exec h, Function.update_of_ne hm]

/-- The inversion of `exec` on the listing: the outputs are named and no line is taken (log 3). -/
theorem listing_of_exec (h : exec i st = .next t) : t.named = st.named ++ i.outputs ∧ t.pending = st.pending := by
  obtain ⟨t', hexec, hlisting⟩ := exec_names_outputs i st
  cases hexec.symm.trans h
  exact hlisting

end

/-- Settles O11: the outputs after an evaluation are its own (`outputs_of_exec`), in which no state occurs. -/
theorem sameInputSameOutput : Obligations.SameInputSameOutput := fun _ _ _ _ _ hs hu =>
  (outputs_of_exec hu).trans (outputs_of_exec hs).symm

/-- Settles O10: the inversion of `exec` on the other modules' ports and on the listing, and R77 for the outputs. -/
theorem evaluationLeavesOtherModulesAlone : Obligations.EvaluationLeavesOtherModulesAlone := by
  intro i st t h
  obtain ⟨hnamed, hpending⟩ := listing_of_exec h
  refine ⟨fun m hm => Prod.mk.inj (shown_of_exec_of_ne h hm), fun st' t' h' => sameInputSameOutput i st t st' t' h h',
    hpending, ?_⟩
  rw [hnamed, outputs_of_exec h]

/-- Settles O8: every evaluation completes (`exec_shown`), with the lanes of pack by formula and those of unpack in
range, where nothing stands above the value bits. -/
theorem everyEvaluationCompletesInRange : Obligations.EveryEvaluationCompletesInRange := by
  refine ⟨fun i st => ?_, fun s st => ⟨_, exec_pack2x4 st s, pack2x4_lane0 s⟩,
    fun s st => ⟨_, exec_pack4x6 st s, fun i => pack4x6_lane s i i.isLt⟩,
    fun s st => ⟨_, exec_pack8x7 st s, fun i => pack8x7_lane s i i.isLt⟩,
    fun b st => ⟨_, exec_unpack2x4 st b, unpack2x4_inRange b, fun j => shr8_of_inRange (unpack2x4_inRange b j)⟩,
    fun b st => ⟨_, exec_unpack4x6 st b, unpack4x6_inRange b, fun j => shr8_of_inRange (unpack4x6_inRange b j)⟩,
    fun b st => ⟨_, exec_unpack8x7 st b, unpack8x7_inRange b, fun j => shr8_of_inRange (unpack8x7_inRange b j)⟩⟩
  obtain ⟨t, hexec, -⟩ := exec_shown i st
  exact ⟨t, hexec, inputs_of_exec hexec⟩

/-! ### The primitives -/

theorem shl8_toNat (v : Byte) (n : Nat) : (shl8 v n).toNat = v.toNat * 2 ^ n % 256 :=
  (BitVec.toNat_shiftLeft ..).trans (congrArg (· % 256) (Nat.shiftLeft_eq ..))

theorem shr8_toNat (v : Byte) (n : Nat) : (shr8 v n).toNat = v.toNat / 2 ^ n :=
  (BitVec.toNat_ushiftRight ..).trans (Nat.shiftRight_eq_div_pow ..)

/-- What a wider shift moves past bit 7, an 8-bit mask takes away (R80). -/
theorem setWidth_shiftLeft_and (v mask : Byte) (n w : Nat) :
    (v.setWidth w <<< n) &&& mask.setWidth w = (shl8 v n &&& mask).setWidth w := by
  refine BitVec.eq_of_getLsbD_eq fun j hj => ?_
  simp only [BitVec.getLsbD_and, BitVec.getLsbD_shiftLeft, BitVec.getLsbD_setWidth, shl8_getLsbD]
  by_cases hj8 : j < 8
  · have hread : j - n < w := by omega
    simp [hj, hj8, hread]
  · simp [BitVec.getLsbD_of_ge mask j (Nat.le_of_not_lt hj8)]

/-- Settles O13: `shl8` by value, by bit and at a greater width; the distances are linear in the lane number. -/
theorem leftShiftKeptToEightBits : Obligations.LeftShiftKeptToEightBits := by
  refine ⟨fun v n _ => ⟨shl8_toNat v n, fun j hj => ?_, fun w _ => setWidth_shiftLeft_and v quadMaskHi n w,
      fun w _ => setWidth_shiftLeft_and v octetMaskHi n w⟩,
    by decide, fun i hi => by simp only [quadShift]; omega, fun i hi => by simp only [octetShift]; omega⟩
  rw [shl8_getLsbD, decide_eq_true hj, Bool.true_and]
  split
  · next hn => rw [decide_eq_false (Nat.not_lt.2 hn)]; rfl
  · next hn => rw [decide_eq_true (Nat.lt_of_not_le hn)]; rfl

/-- The bits from `k` up are the shift down by `k` moved back up. -/
theorem HighMask.and_eq_shl8_shr8 {k : Nat} {hi : Byte} (h : HighMask k hi) (v : Byte) :
    v &&& hi = shl8 (shr8 v k) k :=
  (BitVec.ushiftRight_zero _).symm.trans (h.shr8_and (Nat.zero_le k) v)

/-- Settles O14: `shr8` by value and by bit, the bits read past bit 7 being zero; the high masks by
`HighMask.and_eq_shl8_shr8`. -/
theorem rightShiftIsLogical : Obligations.RightShiftIsLogical := by
  refine ⟨fun v n _ => ⟨shr8_toNat v n, fun j _ => ?_⟩, rfl, by decide, by decide, highMask_quad.and_eq_shl8_shr8,
    highMask_octet.and_eq_shl8_shr8⟩
  rw [shr8_getLsbD, Nat.add_comm]
  split
  · rfl
  · exact BitVec.getLsbD_of_ge _ _ (by omega)

/-! ### Which lanes reach which -/

/-- The lanes `f` depends on are those of `R`, once a lane outside `R` changes nothing and one of `R`, set to ones,
changes what comes of zeros. -/
theorem dependsOnLane_iff_of {n m : Nat} {f : Lanes n → Lanes m} {R : Fin m → Fin n → Prop}
    (hfixed : ∀ i j (x : Lanes n) (v : Byte), ¬ R i j → (f (x.set j v))[i] = (f x)[i])
    (hchanged : ∀ i j, R i j → (f ((Vector.replicate n 0).set j 0xFF))[i] ≠ (f (Vector.replicate n 0))[i])
    (i : Fin m) (j : Fin n) : DependsOnLane f i j ↔ R i j :=
  ⟨fun ⟨x, v, hne⟩ => by_contra fun hR => hne (hfixed i j x v hR), fun hR => ⟨_, _, hchanged i j hR⟩⟩

/-- A Block of the pattern is made of sample0 and its own Sample. -/
theorem dependsOnLane_of_patternPack {m g : Nat} {hi : Byte} {pack : Lanes (m + 1) → Lanes m}
    (hpattern : ∀ s, pack s = patternPack g hi s)
    (hchanged : ∀ (i : Fin m) (j : Fin (m + 1)), j.val = 0 ∨ j.val = i.val + 1 →
      (pack ((Vector.replicate (m + 1) 0).set j 0xFF))[i] ≠ (pack (Vector.replicate (m + 1) 0))[i]) :
    ∀ i j, DependsOnLane pack i j ↔ j.val = 0 ∨ j.val = i.val + 1 := by
  refine dependsOnLane_iff_of (fun i j x v hR => ?_) hchanged
  obtain ⟨h0, hsucc⟩ := not_or.1 hR
  rw [hpattern, hpattern, Fin.getElem_fin, Fin.getElem_fin, patternPack_lane (h := i.isLt),
    patternPack_lane (h := i.isLt), Vector.getElem_set_ne _ _ h0, Vector.getElem_set_ne _ _ hsucc]

/-- sample0 of the pattern is gathered from every Block; each other Sample is the low part of its own. -/
theorem dependsOnLane_of_patternUnpack {m g : Nat} {hi lo : Byte} {unpack : Lanes m → Lanes (m + 1)}
    (hpattern : ∀ b, unpack b = patternUnpack g hi lo b)
    (hchanged : ∀ (i : Fin (m + 1)) (j : Fin m), i.val = 0 ∨ i.val = j.val + 1 →
      (unpack ((Vector.replicate m 0).set j 0xFF))[i] ≠ (unpack (Vector.replicate m 0))[i]) :
    ∀ i j, DependsOnLane unpack i j ↔ i.val = 0 ∨ i.val = j.val + 1 := by
  refine dependsOnLane_iff_of (fun i j x v hR => ?_) hchanged
  obtain ⟨h0, hsucc⟩ := not_or.1 hR
  match i with
  | ⟨0, _⟩ => exact absurd rfl h0
  | ⟨i + 1, hi⟩ =>
    have hne : j.val ≠ i := fun h => hsucc (congrArg (· + 1) h.symm)
    rw [hpattern, hpattern, Fin.getElem_fin, Fin.getElem_fin, patternUnpack_lane_succ (h := by omega),
      patternUnpack_lane_succ (h := by omega), Vector.getElem_set_ne _ _ hne]

/-- In the Pair codec every lane set to ones changes every lane that comes of zeros. -/
theorem dependsOnLane_pack2x4 (i : Fin 1) (j : Fin 2) : DependsOnLane pack2x4 i j := by
  refine ⟨Vector.replicate 2 0, 0xFF, ?_⟩
  revert i j
  decide

theorem dependsOnLane_unpack2x4 (i : Fin 2) (j : Fin 1) : DependsOnLane unpack2x4 i j := by
  refine ⟨Vector.replicate 1 0, 0xFF, ?_⟩
  revert i j
  decide

/-- Settles O33: the Pair codec's rows, and the others by the pattern the codecs share (R75). -/
theorem laneDependencies : Obligations.LaneDependencies :=
  ⟨dependsOnLane_pack2x4, dependsOnLane_unpack2x4,
    dependsOnLane_of_patternPack pack4x6_eq_patternPack (by decide),
    dependsOnLane_of_patternUnpack unpack4x6_eq_patternUnpack (by decide),
    dependsOnLane_of_patternPack pack8x7_eq_patternPack (by decide),
    dependsOnLane_of_patternUnpack unpack8x7_eq_patternUnpack (by decide)⟩

/-! ### Values in range -/

/-- R87 by shift: a value is in range exactly when a shift by `k` leaves nothing of it. -/
theorem inRange_iff_shr8_eq_zero {k : Nat} {v : Byte} : InRange k v ↔ shr8 v k = 0 := by
  refine ⟨shr8_of_inRange, fun h => inRange_iff_high_bits_zero.2 fun j hj => ?_⟩
  have hbit : (shr8 v k).getLsbD (j - k) = false := h ▸ BitVec.getLsbD_zero
  rwa [shr8_getLsbD, Nat.add_sub_cancel' hj] at hbit

/-- A masked value is in range. -/
theorem LowMask.inRange_and {k : Nat} {lo : Byte} (hlo : LowMask k lo) (v : Byte) : InRange k (v &&& lo) :=
  inRange_iff_high_bits_zero.2 fun j hj => by
    rw [hlo.and_bit, decide_eq_false (Nat.not_lt.2 hj), Bool.false_and]

/-- R87 by mask: a Group is in range exactly when masking its Samples changes nothing. -/
theorem LowMask.groupInRange_iff {k n : Nat} {lo : Byte} (hlo : LowMask k lo) (s : Lanes n) :
    GroupInRange k s ↔ s.map (· &&& lo) = s := by
  refine ⟨fun hs => Vector.ext fun i hi => ?_, fun h i => ?_⟩
  · rw [Vector.getElem_map]
    exact hlo.and_of_inRange (hs ⟨i, hi⟩)
  · rw [← h, Fin.getElem_fin, Vector.getElem_map]
    exact hlo.inRange_and _

/-- Settles O41: the limits are `2 ^ k - 1` written out; by shift and by mask as above. -/
theorem inRangeMeansHighBitsZero : Obligations.InRangeMeansHighBitsZero :=
  ⟨fun _ => ⟨Iff.rfl, Iff.rfl, Iff.rfl⟩, fun _ _ _ => inRange_iff_shr8_eq_zero, lowMask_pair.groupInRange_iff,
    lowMask_quad.groupInRange_iff, lowMask_octet.groupInRange_iff⟩

end Sys2Proof.Machine
end

section
/-! PROOFS. Exceptions (`60_exceptions.md`): the block raises none (R89). -/

namespace Sys2Proof.Machine

/-- Settles O9: every evaluation completes (`exec_shown`), and a next state is neither a fault nor a refusal. -/
theorem noOperationRaisesAnything : Obligations.NoOperationRaisesAnything := by
  intro i st
  obtain ⟨t, hexec, -⟩ := exec_shown i st
  rw [hexec]
  exact ⟨nofun, nofun⟩

end Sys2Proof.Machine
end

section
/-! PROOFS. Reset and hazards (`70_reset_and_hazards.md`): reset (R103), unknown input bits (R104), and the networks of
R109: a line without its values and a feed-forward chain. -/

namespace Sys2Proof.Machine

/-! ### All zeros, at reset and as an input -/

theorem pack2x4_zero : pack2x4 (Vector.replicate 2 0) = Vector.replicate 1 0 := by decide
theorem unpack2x4_zero : unpack2x4 (Vector.replicate 1 0) = Vector.replicate 2 0 := by decide
theorem pack4x6_zero : pack4x6 (Vector.replicate 4 0) = Vector.replicate 3 0 := by decide
theorem unpack4x6_zero : unpack4x6 (Vector.replicate 3 0) = Vector.replicate 4 0 := by decide
theorem pack8x7_zero : pack8x7 (Vector.replicate 8 0) = Vector.replicate 7 0 := by decide
theorem unpack8x7_zero : unpack8x7 (Vector.replicate 7 0) = Vector.replicate 8 0 := by decide

/-- R103 at reset: a function that gives zeros for zeros is shown by ports that are all zero. -/
theorem Ports.follows_zero {n m : Nat} {f : Lanes n → Lanes m}
    (hzero : f (Vector.replicate n 0) = Vector.replicate m 0) : (Ports.zero n m).Follows f :=
  hzero.symm

theorem State.outputsFollow_reset : State.reset.OutputsFollow where
  pairPack := Ports.follows_zero pack2x4_zero
  pairUnpack := Ports.follows_zero unpack2x4_zero
  quadPack := Ports.follows_zero pack4x6_zero
  quadUnpack := Ports.follows_zero unpack4x6_zero
  octetPack := Ports.follows_zero pack8x7_zero
  octetUnpack := Ports.follows_zero unpack8x7_zero

theorem State.shown_reset (m : Module) :
    State.reset.shown m = (List.replicate m.inputLanes 0, List.replicate m.outputLanes 0) := by
  cases m <;> rfl

/-- Settles O53: zeros on every port, which the six functions of zeros are; nothing stands in the listing. -/
theorem resetShowsZeros : Obligations.ResetShowsZeros :=
  ⟨State.outputsFollow_reset, rfl, rfl, rfl, fun m => Prod.mk.inj (State.shown_reset m)⟩

/-! ### Unknown input bits -/

/-- Setting the bits of `mask` leaves of a value what stands outside `mask`. -/
theorem and_not_or_mask (v mask : Byte) : (v &&& ~~~mask) ||| mask = v ||| mask := by
  refine byte_ext fun j hj => ?_
  simp only [BitVec.getLsbD_or, BitVec.getLsbD_and, BitVec.getLsbD_not, hj, decide_true, Bool.true_and]
  cases mask.getLsbD j <;> simp

/-- Two values of a partly unknown input are the same once the unknown bits are set. -/
theorem AgreeOutside.orLanes_eq {n : Nat} {mask x y : Lanes n} (h : AgreeOutside mask x y) :
    orLanes x mask = orLanes y mask :=
  Vector.ext fun i hi => by
    have hlane : x[i] &&& ~~~mask[i] = y[i] &&& ~~~mask[i] := h ⟨i, hi⟩
    rw [orLanes_lane, orLanes_lane, ← and_not_or_mask x[i], hlane, and_not_or_mask]

/-- With the bits of `mask` unknown, the input can be `mask` itself or all zeros. -/
theorem agreeOutside_zero {n : Nat} (mask : Lanes n) : AgreeOutside mask mask (Vector.replicate n 0) := fun i => by
  simp

/-- R104 for a function that distributes over OR and gives zeros for zeros: an output bit that `mask` sets tells `mask`
from all zeros, and one that it does not set is the same for all inputs that become equal once `mask` is set. -/
theorem unknownAt_iff_of_or {n m : Nat} {f : Lanes n → Lanes m}
    (hor : ∀ x y, f (orLanes x y) = orLanes (f x) (f y)) (hzero : f (Vector.replicate n 0) = Vector.replicate m 0)
    (mask : Lanes n) (i : Fin m) (j : Nat) : UnknownAt f mask i j ↔ (f mask)[i].getLsbD j = true := by
  refine ⟨fun ⟨x, y, hagree, hne⟩ => by_contra fun hmask => hne ?_, fun hmask => ?_⟩
  · have hclear : (f mask)[i.val].getLsbD j = false := Bool.eq_false_iff.2 hmask
    have hbit (z : Lanes n) : (f z)[i].getLsbD j = (f (orLanes z mask))[i].getLsbD j := by
      rw [hor, Fin.getElem_fin, Fin.getElem_fin, orLanes_lane, BitVec.getLsbD_or, hclear, Bool.or_false]
    rw [hbit x, hbit y, hagree.orLanes_eq]
  · refine ⟨mask, Vector.replicate n 0, agreeOutside_zero mask, ?_⟩
    rw [hmask, hzero]
    simp

/-- Settles O34: each of the six functions distributes over OR and gives zeros for zeros. -/
theorem unknownBitsReachExactlyDependentOutputs : Obligations.UnknownBitsReachExactlyDependentOutputs :=
  ⟨unknownAt_iff_of_or pack2x4_or pack2x4_zero, unknownAt_iff_of_or unpack2x4_or unpack2x4_zero,
    unknownAt_iff_of_or pack4x6_or pack4x6_zero, unknownAt_iff_of_or unpack4x6_or unpack4x6_zero,
    unknownAt_iff_of_or pack8x7_or pack8x7_zero, unknownAt_iff_of_or unpack8x7_or unpack8x7_zero⟩

/-! ### The end of a run, a line without its values and a feed-forward chain -/

/-- Settles O48: the branch of `step` for an empty listing. -/
theorem stepAfterTheLastLineChangesNothing : Obligations.StepAfterTheLastLineChangesNothing := by
  intro st hp
  simp [step, hp]

theorem Operand.value_of_undefined {named : List Byte} {n : Nat} (h : named.length ≤ n) :
    Operand.value named (.name n) = .error (.undefinedName n) := by
  simp [Operand.value, List.getElem?_eq_none h]

/-- Arguments are refused by the first that has no value, whatever comes after it. -/
theorem readOperands_append_error {named : List Byte} {a : Operand} {r : Refusal} (ha : a.value named = .error r)
    (after : List Operand) : ∀ {before : List Operand}, before.all (Operand.wellFormed named.length) = true →
      readOperands named (before ++ a :: after) = .error r
  | [], _ => by simp [readOperands, ha]
  | b :: before, h => by
    rw [List.all_cons, Bool.and_eq_true] at h
    obtain ⟨hb, hbefore⟩ := h
    obtain ⟨v, hv⟩ := Operand.value_of_wellFormed hb
    simp [readOperands, hv, readOperands_append_error ha after hbefore]

/-- What a line's arguments are refused for, the line is refused for. -/
theorem Line.instr_of_read_error {named : List Byte} {l : Line} {r : Refusal}
    (hr : readOperands named l.operands = .error r) : l.instr named = .error r := by
  simp [Line.instr, hr]

/-- Settles O51: the arguments before the undefined name have values, so it is the first that has none. -/
theorem stepRefusesLoop : Obligations.StepRefusesLoop := by
  intro st line rest before after n hp hops hbefore hn
  have hread : readOperands st.named line.operands = .error (.undefinedName n) :=
    hops ▸ readOperands_append_error (Operand.value_of_undefined hn) after hbefore
  exact step_of_instr_error hp (Line.instr_of_read_error hread)

/-- The names defined last have the values they were given. -/
theorem readOperands_latest_names : ∀ named lanes : List Byte,
    readOperands (named ++ lanes) ((List.range' named.length lanes.length).map Operand.name) = .ok lanes
  | _, [] => rfl
  | named, v :: rest => by
    have hrest := readOperands_latest_names (named ++ [v]) rest
    rw [List.length_append, List.append_assoc] at hrest
    exact readOperands_cons_eq_ok_iff.2 ⟨v, rest, by simp [Operand.value], hrest, rfl⟩

/-- A line that takes the names defined last, as many as its module has lanes, stands for the module's evaluation of
their values. -/
theorem Line.instr_of_latest_names {m : Module} {lanes : List Byte} (named : List Byte)
    (hlen : lanes.length = m.inputLanes) :
    ∃ j : Instr, j.module = m ∧ j.inputs = lanes ∧
      Line.instr (named ++ lanes)
        { index := m.index, operands := (List.range' named.length m.inputLanes).map Operand.name } = .ok j := by
  obtain ⟨j, -, hmod, hinp⟩ := decode_of_length_eq hlen
  refine ⟨j, hmod, hinp, Line.instr_eq_ok_iff.2 ⟨?_, congrArg Module.index hmod.symm⟩⟩
  rw [hinp, ← hlen]
  exact readOperands_latest_names named lanes

/-- Settles O52: the first line is its evaluation (`Line.instr_ofInstr`), which names what it puts out; the second is
the evaluation of those values (`Line.instr_of_latest_names`). -/
theorem feedForwardChainComposes : Obligations.FeedForwardChainComposes := by
  intro i m rest st hlanes hp
  have hfirst := step_of_instr hp (Line.instr_ofInstr st.named i)
  obtain ⟨t, hexec, hnamed, hpend⟩ := exec_names_outputs i { st with pending := _ }
  have hout : t.outputs i.module = i.outputs := outputs_of_exec hexec
  obtain ⟨j, hmod, hinp, hinstr⟩ := Line.instr_of_latest_names st.named (i.outputs_length.trans hlanes.symm)
  have hsecond : step t = exec j { t with pending := rest } := step_of_instr hpend (hnamed ▸ hinstr)
  obtain ⟨u, hexec', -, hpend'⟩ := exec_names_outputs j { t with pending := rest }
  have hu : u.inputs m = j.inputs := hmod ▸ inputs_of_exec hexec'
  exact ⟨t, u, j, hfirst.trans hexec, inputs_of_exec hexec, hmod, hinp.trans hout.symm, hsecond,
    hsecond.trans hexec', (hu.trans hinp).trans hout.symm, hpend'⟩

end Sys2Proof.Machine
end

section
/-! PROOFS. The step on a line whose arguments have values: the decoder's answer (R47, R51) is the step's, an evaluation
run (decision D10) or an index that labels no operation refused (decision D12, U12). -/

namespace Sys2Proof.Machine

/-- Settles O46: a line whose lanes decode to an evaluation stands for it (`Line.instr_eq_ok_iff`), and the step of such
a line is the evaluation (`step_of_instr`). -/
theorem stepRunsDecodedEvaluation : Obligations.StepRunsDecodedEvaluation := by
  intro st line rest lanes i hp hread hdec
  obtain ⟨hidx, rfl⟩ := decode_eq_ok_iff.1 hdec
  exact step_of_instr hp (Line.instr_eq_ok_iff.2 ⟨hread, hidx⟩)

/-- Settles O49: well-formed arguments are read, so it is the decoder that refuses the line, for its index. -/
theorem stepRefusesUnknownIndex : Obligations.StepRefusesUnknownIndex := by
  intro st line rest hp hgt hwf
  obtain ⟨lanes, hread, -⟩ := readOperands_of_wellFormed hwf
  exact step_of_instr_error hp (Line.instr_of_decode_error hread (decode_of_index_gt hgt lanes))

end Sys2Proof.Machine
end
